-- ==== Sys2Proof/Word.lean ====
section
/-!
DEFINITION. The word types of the CHIP-8 core: the spec's bit fields and register widths
(spec/00_scope.md R7, R8, R11; spec/10_state.md R21, R25 to R28).
-/

namespace Sys2Proof

/-- 8-bit values: memory bytes, V registers, timers, the constant `kk` (R11, R21, R28). -/
abbrev Byte := BitVec 8

/-- 16-bit values: instruction words, I, PC and SP (R25, R26, R27, R80). -/
abbrev Word := BitVec 16

/-- One 4-bit half of a byte (R12). -/
abbrev Nibble := BitVec 4

/-- A 4-bit register index; every value 0..15 names a register (R21). -/
abbrev RegIdx := BitVec 4

/-- The 12-bit address field `nnn` (R11, R82). -/
abbrev Addr := BitVec 12

/-- A logical key value 0x0..0xF (R280, R282). -/
abbrev Key := BitVec 4

end Sys2Proof
end

