-- ==== Sys2Proof/Syntax.lean ====
section
/-!
DEFINITION. The abstract syntax: one constructor per row of spec/opcode_table.json, in the table's
order (spec/30_encoding.md R81, R90). A field has the type of its width, so every term of `Instr`
is a legal instruction. The bits a row ignores (the low nibble of 5xy_ and 9xy_, the y nibble of
8x_6 and 8x_E) are no field: R85, R179 and R181 give every value of them one meaning.
-/

namespace Sys2Proof

/-- The 34 instructions of R90. -/
inductive Instr where
  /-- Row 1, `00E0` CLS. -/
  | cls
  /-- Row 2, `00EE` RET. -/
  | ret
  /-- Row 3, `1nnn` JP nnn. -/
  | jp (nnn : Addr)
  /-- Row 4, `2nnn` CALL nnn. -/
  | call (nnn : Addr)
  /-- Row 5, `3xkk` SE Vx, kk. -/
  | seImm (x : RegIdx) (kk : Byte)
  /-- Row 6, `4xkk` SNE Vx, kk. -/
  | sneImm (x : RegIdx) (kk : Byte)
  /-- Row 7, `5xy_` SE Vx, Vy. -/
  | seReg (x y : RegIdx)
  /-- Row 8, `6xkk` LD Vx, kk. -/
  | ldImm (x : RegIdx) (kk : Byte)
  /-- Row 9, `7xkk` ADD Vx, kk. -/
  | addImm (x : RegIdx) (kk : Byte)
  /-- Row 10, `8xy0` LD Vx, Vy. -/
  | ldReg (x y : RegIdx)
  /-- Row 11, `8xy1` OR Vx, Vy. -/
  | orReg (x y : RegIdx)
  /-- Row 12, `8xy2` AND Vx, Vy. -/
  | andReg (x y : RegIdx)
  /-- Row 13, `8xy3` XOR Vx, Vy. -/
  | xorReg (x y : RegIdx)
  /-- Row 14, `8xy4` ADD Vx, Vy. -/
  | addReg (x y : RegIdx)
  /-- Row 15, `8xy5` SUB Vx, Vy. -/
  | subReg (x y : RegIdx)
  /-- Row 16, `8x_6` SHR Vx. -/
  | shr (x : RegIdx)
  /-- Row 17, `8xy7` SUBN Vx, Vy. -/
  | subnReg (x y : RegIdx)
  /-- Row 18, `8x_E` SHL Vx. -/
  | shl (x : RegIdx)
  /-- Row 19, `9xy_` SNE Vx, Vy. -/
  | sneReg (x y : RegIdx)
  /-- Row 20, `Annn` LD I, nnn. -/
  | ldI (nnn : Addr)
  /-- Row 21, `Bnnn` JP V0, nnn. -/
  | jpV0 (nnn : Addr)
  /-- Row 22, `Cxkk` RND Vx, kk. -/
  | rnd (x : RegIdx) (kk : Byte)
  /-- Row 23, `Dxyn` DRW Vx, Vy, n. -/
  | drw (x y : RegIdx) (n : Nibble)
  /-- Row 24, `Ex9E` SKP Vx. -/
  | skp (x : RegIdx)
  /-- Row 25, `ExA1` SKNP Vx. -/
  | sknp (x : RegIdx)
  /-- Row 26, `Fx07` LD Vx, DT. -/
  | ldVxDT (x : RegIdx)
  /-- Row 27, `Fx0A` LD Vx, K. -/
  | ldVxK (x : RegIdx)
  /-- Row 28, `Fx15` LD DT, Vx. -/
  | ldDTVx (x : RegIdx)
  /-- Row 29, `Fx18` LD ST, Vx. -/
  | ldSTVx (x : RegIdx)
  /-- Row 30, `Fx1E` ADD I, Vx. -/
  | addIVx (x : RegIdx)
  /-- Row 31, `Fx29` LD F, Vx. -/
  | ldFVx (x : RegIdx)
  /-- Row 32, `Fx33` LD B, Vx. -/
  | ldBVx (x : RegIdx)
  /-- Row 33, `Fx55` LD [I], Vx. -/
  | ldMemVx (x : RegIdx)
  /-- Row 34, `Fx65` LD Vx, [I]. -/
  | ldVxMem (x : RegIdx)
  deriving DecidableEq, Repr

end Sys2Proof
end

