-- ==== Sys2Proof/Decode.lean ====
section
/-!
DEFINITION. The decoder, total on any bytes (spec/30_encoding.md R80 to R89), the encoder written
from the same formats (R81, R90), and the opcode map R90 as data. An illegal word decodes to `none`
(R88); the machine turns that into `DecodeError(op, PC)` (R305).
-/

namespace Sys2Proof

/-! ### The fields of a word (R7, R11, R81) -/

/-- The leftmost nibble, `op[15:12]`. -/
def fieldO (op : Word) : Nibble := op.extractLsb' 12 4

/-- `x = op[11:8]`. -/
def fieldX (op : Word) : RegIdx := op.extractLsb' 8 4

/-- `y = op[7:4]`. -/
def fieldY (op : Word) : RegIdx := op.extractLsb' 4 4

/-- `n = op[3:0]`, the rightmost nibble. -/
def fieldN (op : Word) : Nibble := op.extractLsb' 0 4

/-- `kk = op[7:0]`, the low byte. -/
def fieldKK (op : Word) : Byte := op.extractLsb' 0 8

/-- `nnn = op[11:0]`. -/
def fieldNNN (op : Word) : Addr := op.extractLsb' 0 12

/-! ### The decoder's stages -/

/-- Stage 1, the two instructions recognised by their full word (R83). -/
def decodeStage1 (op : Word) : Option Instr :=
  if op = 0x00E0 then some .cls
  else if op = 0x00EE then some .ret
  else none

/-- Stage 2, leftmost nibble 0xE with the full low byte (R84). -/
def decodeStage2 (op : Word) : Option Instr :=
  if fieldO op = 0xE then
    if fieldKK op = 0x9E then some (.skp (fieldX op))
    else if fieldKK op = 0xA1 then some (.sknp (fieldX op))
    else none
  else none

/-- Stage 3, the 8 table: the rightmost nibble selects (R86). -/
def decode8 (op : Word) : Option Instr :=
  match (fieldN op).toNat with
  | 0x0 => some (.ldReg (fieldX op) (fieldY op))
  | 0x1 => some (.orReg (fieldX op) (fieldY op))
  | 0x2 => some (.andReg (fieldX op) (fieldY op))
  | 0x3 => some (.xorReg (fieldX op) (fieldY op))
  | 0x4 => some (.addReg (fieldX op) (fieldY op))
  | 0x5 => some (.subReg (fieldX op) (fieldY op))
  | 0x6 => some (.shr (fieldX op))
  | 0x7 => some (.subnReg (fieldX op) (fieldY op))
  | 0xE => some (.shl (fieldX op))
  | _ => none

/-- Stage 3, the F table: the low byte selects (R87). -/
def decodeF (op : Word) : Option Instr :=
  match (fieldKK op).toNat with
  | 0x07 => some (.ldVxDT (fieldX op))
  | 0x0A => some (.ldVxK (fieldX op))
  | 0x15 => some (.ldDTVx (fieldX op))
  | 0x18 => some (.ldSTVx (fieldX op))
  | 0x1E => some (.addIVx (fieldX op))
  | 0x29 => some (.ldFVx (fieldX op))
  | 0x33 => some (.ldBVx (fieldX op))
  | 0x55 => some (.ldMemVx (fieldX op))
  | 0x65 => some (.ldVxMem (fieldX op))
  | _ => none

/-- Stage 3: the leftmost nibble selects, alone or with the 8 and F tables (R85 to R87). The low
nibble of nibbles 5 and 9 is not looked at (R85). -/
def decodeStage3 (op : Word) : Option Instr :=
  match (fieldO op).toNat with
  | 0x1 => some (.jp (fieldNNN op))
  | 0x2 => some (.call (fieldNNN op))
  | 0x3 => some (.seImm (fieldX op) (fieldKK op))
  | 0x4 => some (.sneImm (fieldX op) (fieldKK op))
  | 0x5 => some (.seReg (fieldX op) (fieldY op))
  | 0x6 => some (.ldImm (fieldX op) (fieldKK op))
  | 0x7 => some (.addImm (fieldX op) (fieldKK op))
  | 0x8 => decode8 op
  | 0x9 => some (.sneReg (fieldX op) (fieldY op))
  | 0xA => some (.ldI (fieldNNN op))
  | 0xB => some (.jpV0 (fieldNNN op))
  | 0xC => some (.rnd (fieldX op) (fieldKK op))
  | 0xD => some (.drw (fieldX op) (fieldY op) (fieldN op))
  | 0xF => decodeF op
  | _ => none

/-- The decoder of one instruction word: stage 1, then 2, then 3 (R89); `none` is a decode error. -/
def decode (op : Word) : Option Instr :=
  match decodeStage1 op with
  | some i => some i
  | none =>
    match decodeStage2 op with
    | some i => some i
    | none => decodeStage3 op

/-- Two bytes in memory order as one big-endian word (R51, R80). -/
def wordOfBytes (hi lo : Byte) : Word := hi ++ lo

/-- The two bytes of a word in memory order, high byte at the lower address (R51). -/
def bytesOfWord (op : Word) : List Byte := [op.extractLsb' 8 8, op.extractLsb' 0 8]

/-- The decoder on any bytes: the instruction at their head and the bytes after it (R80). -/
def decodeBytes : List Byte → Option (Instr × List Byte)
  | hi :: lo :: rest => (decode (wordOfBytes hi lo)).map fun i => (i, rest)
  | _ => none

/-! ### The encoder -/

/-- Format `NNN`: nibble o, address nnn (R81). -/
def wordNNN (o : Nibble) (nnn : Addr) : Word := o ++ nnn

/-- Format `XKK`, and format `X` with kk fixed (R81). -/
def wordXKK (o : Nibble) (x : RegIdx) (kk : Byte) : Word := o ++ x ++ kk

/-- Formats `XY` and `XYN` (R81). -/
def wordXYN (o : Nibble) (x y : RegIdx) (n : Nibble) : Word := o ++ x ++ y ++ n

/-- The word of an instruction (R90, R91). Ignored bits are encoded as 0: R91 says so for 5xy_ and
9xy_, and for 8x_6 and 8x_E it is the model's choice (DESIGN CHOICE, assumption 7). -/
def encode : Instr → Word
  | .cls => 0x00E0
  | .ret => 0x00EE
  | .jp nnn => wordNNN 0x1 nnn
  | .call nnn => wordNNN 0x2 nnn
  | .seImm x kk => wordXKK 0x3 x kk
  | .sneImm x kk => wordXKK 0x4 x kk
  | .seReg x y => wordXYN 0x5 x y 0x0
  | .ldImm x kk => wordXKK 0x6 x kk
  | .addImm x kk => wordXKK 0x7 x kk
  | .ldReg x y => wordXYN 0x8 x y 0x0
  | .orReg x y => wordXYN 0x8 x y 0x1
  | .andReg x y => wordXYN 0x8 x y 0x2
  | .xorReg x y => wordXYN 0x8 x y 0x3
  | .addReg x y => wordXYN 0x8 x y 0x4
  | .subReg x y => wordXYN 0x8 x y 0x5
  | .shr x => wordXYN 0x8 x 0x0 0x6
  | .subnReg x y => wordXYN 0x8 x y 0x7
  | .shl x => wordXYN 0x8 x 0x0 0xE
  | .sneReg x y => wordXYN 0x9 x y 0x0
  | .ldI nnn => wordNNN 0xA nnn
  | .jpV0 nnn => wordNNN 0xB nnn
  | .rnd x kk => wordXKK 0xC x kk
  | .drw x y n => wordXYN 0xD x y n
  | .skp x => wordXKK 0xE x 0x9E
  | .sknp x => wordXKK 0xE x 0xA1
  | .ldVxDT x => wordXKK 0xF x 0x07
  | .ldVxK x => wordXKK 0xF x 0x0A
  | .ldDTVx x => wordXKK 0xF x 0x15
  | .ldSTVx x => wordXKK 0xF x 0x18
  | .addIVx x => wordXKK 0xF x 0x1E
  | .ldFVx x => wordXKK 0xF x 0x29
  | .ldBVx x => wordXKK 0xF x 0x33
  | .ldMemVx x => wordXKK 0xF x 0x55
  | .ldVxMem x => wordXKK 0xF x 0x65

/-- The bytes of an instruction as memory holds them. -/
def encodeBytes (i : Instr) : List Byte := bytesOfWord (encode i)

/-! ### The opcode map as data -/

/-- One row of R90: its number, and the pattern and mask on the word. -/
structure OpcodeRow where
  /-- The row's number, 1 to 34. -/
  number : Nat
  /-- The column `match`. -/
  pattern : Word
  /-- The column `mask`. -/
  mask : Word
  deriving DecidableEq, Repr

/-- A word selects a row when `op & mask = match` (R90). -/
def OpcodeRow.selects (r : OpcodeRow) (op : Word) : Bool := op &&& r.mask == r.pattern

/-- Rows 1 to 9 of R90. -/
def opcodeRows1 : List OpcodeRow :=
  [⟨1, 0x00E0, 0xFFFF⟩, ⟨2, 0x00EE, 0xFFFF⟩, ⟨3, 0x1000, 0xF000⟩, ⟨4, 0x2000, 0xF000⟩,
   ⟨5, 0x3000, 0xF000⟩, ⟨6, 0x4000, 0xF000⟩, ⟨7, 0x5000, 0xF000⟩, ⟨8, 0x6000, 0xF000⟩,
   ⟨9, 0x7000, 0xF000⟩]

/-- Rows 10 to 18 of R90, the 8 family. -/
def opcodeRows8 : List OpcodeRow :=
  [⟨10, 0x8000, 0xF00F⟩, ⟨11, 0x8001, 0xF00F⟩, ⟨12, 0x8002, 0xF00F⟩, ⟨13, 0x8003, 0xF00F⟩,
   ⟨14, 0x8004, 0xF00F⟩, ⟨15, 0x8005, 0xF00F⟩, ⟨16, 0x8006, 0xF00F⟩, ⟨17, 0x8007, 0xF00F⟩,
   ⟨18, 0x800E, 0xF00F⟩]

/-- Rows 19 to 25 of R90. -/
def opcodeRows9 : List OpcodeRow :=
  [⟨19, 0x9000, 0xF000⟩, ⟨20, 0xA000, 0xF000⟩, ⟨21, 0xB000, 0xF000⟩, ⟨22, 0xC000, 0xF000⟩,
   ⟨23, 0xD000, 0xF000⟩, ⟨24, 0xE09E, 0xF0FF⟩, ⟨25, 0xE0A1, 0xF0FF⟩]

/-- Rows 26 to 34 of R90, the F family. -/
def opcodeRowsF : List OpcodeRow :=
  [⟨26, 0xF007, 0xF0FF⟩, ⟨27, 0xF00A, 0xF0FF⟩, ⟨28, 0xF015, 0xF0FF⟩, ⟨29, 0xF018, 0xF0FF⟩,
   ⟨30, 0xF01E, 0xF0FF⟩, ⟨31, 0xF029, 0xF0FF⟩, ⟨32, 0xF033, 0xF0FF⟩, ⟨33, 0xF055, 0xF0FF⟩,
   ⟨34, 0xF065, 0xF0FF⟩]

/-- The opcode map of R90, in its order. -/
def opcodeRows : List OpcodeRow := opcodeRows1 ++ opcodeRows8 ++ opcodeRows9 ++ opcodeRowsF

/-- The number of an instruction's row in R90. -/
def Instr.rowNumber : Instr → Nat
  | .cls => 1
  | .ret => 2
  | .jp _ => 3
  | .call _ => 4
  | .seImm _ _ => 5
  | .sneImm _ _ => 6
  | .seReg _ _ => 7
  | .ldImm _ _ => 8
  | .addImm _ _ => 9
  | .ldReg _ _ => 10
  | .orReg _ _ => 11
  | .andReg _ _ => 12
  | .xorReg _ _ => 13
  | .addReg _ _ => 14
  | .subReg _ _ => 15
  | .shr _ => 16
  | .subnReg _ _ => 17
  | .shl _ => 18
  | .sneReg _ _ => 19
  | .ldI _ => 20
  | .jpV0 _ => 21
  | .rnd _ _ => 22
  | .drw _ _ _ => 23
  | .skp _ => 24
  | .sknp _ => 25
  | .ldVxDT _ => 26
  | .ldVxK _ => 27
  | .ldDTVx _ => 28
  | .ldSTVx _ => 29
  | .addIVx _ => 30
  | .ldFVx _ => 31
  | .ldBVx _ => 32
  | .ldMemVx _ => 33
  | .ldVxMem _ => 34

/-! ### The host's numbering of an instruction's bits -/

/-- The bytes of the instruction whose bits, numbered as spec/opcode_table.json numbers them, are
`w`: one 16-bit word, stored big-endian; bits above `nbits` are 0. -/
def tableBytes (nbits w : Nat) : List Byte := bytesOfWord (BitVec.ofNat 16 (w % 2 ^ nbits))

/-- What the decoder reads from that instruction's bytes. -/
def decodeTableWord (nbits w : Nat) : Option Instr :=
  (decodeBytes (tableBytes nbits w)).map fun r => r.1

end Sys2Proof
end

