-- ==== Sys2Proof/Config.lean ====
section
/-!
DEFINITION. What is fixed for a machine and no instruction changes: the named constants and the
parameters of spec/00_scope.md R6, and the free values of the host's inputs (R110).
-/

namespace Sys2Proof

/-- `MEM_SIZE`: addresses 0x000..0xFFF (R6, R50). -/
def Config.memSize : Nat := 4096

/-- `LOAD_ADDR`, the reset PC and the program's load address (R6, R26, decision D13). -/
def Config.loadAddr : Nat := 0x200

/-- `INSN_BYTES`, the width of every instruction (R6, R80). -/
def Config.insnBytes : Nat := 2

/-- `FONT_GLYPH_BYTES` (R6, decision D11). -/
def Config.fontGlyphBytes : Nat := 5

/-- `RANDOM_FIXED`, the random byte of deterministic mode (R6, R183). -/
def Config.randomFixed : Byte := 0xFF

/-- VF, the register that doubles as the flag output (R8, R23). -/
def Config.flagReg : RegIdx := 0xF

/-- The parameters R6 leaves open, with the defaults of R6 and, for the two Booleans, those of the
conventions of spec/95_test_vectors.md (assumptions 4 and 5). -/
structure Params where
  /-- `TIMER_DIVIDER` (N): completed instructions for one timer tick. -/
  timerDivider : Nat := 8
  /-- `FONT_BASE`: where the host loads the font. -/
  fontBase : Nat := 0x000
  /-- `STACK_BASE`: the address of the first stack entry. -/
  stackBase : Nat := 0x0EA0
  /-- `STACK_DEPTH`: how many 2-byte entries the stack region holds. -/
  stackDepth : Nat := 16
  /-- `DISPLAY_ATTACHED`: false is headless mode. -/
  displayAttached : Bool := true
  /-- `DETERMINISTIC`: the random byte is `RANDOM_FIXED`. -/
  deterministic : Bool := true
  deriving DecidableEq, Repr

/-- `SP_EMPTY = STACK_BASE - 2` (R6, R27). -/
def Params.spEmpty (p : Params) : Nat := p.stackBase - 2

/-- `SP_MAX = STACK_BASE + 2*(STACK_DEPTH-1)` (R6, R27). -/
def Params.spMax (p : Params) : Nat := p.stackBase + 2 * (p.stackDepth - 1)

/-- FREE VALUE (R183, decision D22; assumption 2): the n-th random byte drawn from the host outside
deterministic mode. No body: nothing can be proved of a value of it. -/
opaque Config.rndDraw : Nat → Byte

/-- FREE VALUE (R283, R284, decision D28; assumption 3): the n-th answer of the keyboard interface.
No body: nothing can be proved of a value of it. -/
opaque Config.kbdDraw : Nat → Option Key

end Sys2Proof
end

