-- ==== Sys2Proof/WellFormed.lean ====
section
/-!
DEFINITION. The checks a term can fail. An instruction can fail none: every field of `Instr` has
exactly the width of its encoding and every combination of fields is legal (spec/30_encoding.md
R82, R88 "no reserved-but-legal encodings"). What can be ill-formed is the parameter record, which
"a model checks" (spec/00_scope.md R6).
-/

namespace Sys2Proof

/-- `STACK_DEPTH >= 1` (R6). -/
def Params.depthOk (p : Params) : Bool := decide (1 ≤ p.stackDepth)

/-- `STACK_BASE` even (R6). -/
def Params.baseEven (p : Params) : Bool := decide (p.stackBase % 2 = 0)

/-- `SP_EMPTY >= 0` as an integer: `STACK_BASE - 2` does not go below 0 (R6). -/
def Params.emptyOk (p : Params) : Bool := decide (2 ≤ p.stackBase)

/-- `SP_MAX + 1 <= 0xFFF` (R6). -/
def Params.maxOk (p : Params) : Bool := decide (p.spMax + 1 ≤ 0xFFF)

/-- `FONT_BASE + 16*FONT_GLYPH_BYTES - 1 <= 0xFFF` (R6). -/
def Params.fontOk (p : Params) : Bool :=
  decide (p.fontBase + 16 * Config.fontGlyphBytes - 1 ≤ 0xFFF)

/-- DEDUCED (assumption 6): `TIMER_DIVIDER >= 1`, since `tick` lies in `0 .. N-1` (R20, R33). -/
def Params.dividerOk (p : Params) : Bool := decide (1 ≤ p.timerDivider)

/-- Every constraint on the parameters (R6). -/
def Params.wellFormed (p : Params) : Bool :=
  p.depthOk && p.baseEven && p.emptyOk && p.maxOk && p.fontOk && p.dividerOk

end Sys2Proof
end

