-- ==== Sys2Proof/Machine/State.lean ====
section
/-!
DEFINITION. The state of the machine as plain data (spec/10_state.md R20 to R36), the fatal errors
it can record (spec/60_exceptions.md R300), the reasons a step stops, and the state after
construction (R36, R340).
-/

namespace Sys2Proof.Machine

/-! ### The fatal errors -/

/-- Why the host's `load` port failed: the "(host-side cause)" of R300. -/
inductive LoadCause where
  /-- The source cannot be read (R57, R311). -/
  | unreadable
  /-- The image's last byte would land beyond 0xFFF (R57, decision D24). -/
  | doesNotFit
  deriving DecidableEq, Repr

/-- The eight fatal errors with what each records (R300). -/
inductive FatalError where
  /-- Code 1: a word that decodes to nothing (R88, R305). -/
  | decodeError (op pc : Word)
  /-- Code 2: a display or keyboard instruction when headless (R306). -/
  | configurationError (op pc : Word)
  /-- Code 3: CALL with the stack full (R140, R307). -/
  | stackOverflow (pc sp : Word)
  /-- Code 4: RET with the stack empty (R141, R307). -/
  | stackUnderflow (pc sp : Word)
  /-- Code 5: the host's `load` failed (R57, R311). -/
  | loadError (cause : LoadCause)
  /-- Code 6: an access to a byte address above 0xFFF (R53, R308). -/
  | memoryBounds (pc addr : Word)
  /-- Code 7: a fetch at an odd PC (R54, R309). -/
  | misalignedFetch (pc : Word)
  /-- Code 8: LD F, Vx with V[x] above 0x0F (R212, R310). -/
  | fontDigitRange (pc : Word) (v : Byte)
  deriving DecidableEq, Repr

/-- `Running` or `Halted(err)` (R35). -/
inductive Status where
  | running
  | halted (err : FatalError)
  deriving DecidableEq, Repr

/-! ### Memory -/

/-- Memory as (address, byte) pairs in one canonical form: addresses strictly rising and below
`MEM_SIZE`, no entry equal to what an unlisted address reads as (R50). -/
abbrev Memory := List Host.Cell

/-- What an unlisted address reads as: 0, the content after construction (R22, R36). -/
def Memory.unlisted : Byte := 0x00

/-- The canonical form from address `lo` up. -/
def Memory.wfFrom : Nat → Memory → Bool
  | _, [] => true
  | lo, (a, b) :: rest =>
    decide (lo ≤ a) && decide (a < Config.memSize) && (b != Memory.unlisted) && wfFrom (a + 1) rest

/-- The canonical form of a whole memory. -/
def Memory.wf (m : Memory) : Bool := Memory.wfFrom 0 m

/-! ### The display and the inputs -/

/-- FB: 64 columns of 32 one-bit pixels, `FB[x][y]` (R8, R29). -/
abbrev FrameBuffer := Vector (Vector Bool 32) 64

/-- A framebuffer of one colour. -/
def FrameBuffer.filled (c : Bool) : FrameBuffer := Vector.replicate 64 (Vector.replicate 32 c)

/-- The calls the core makes on the display interface, as events (R260, R261). -/
inductive DisplayCall where
  /-- `draw_pixel(x, y, color)`. -/
  | drawPixel (x : Fin 64) (y : Fin 32) (color : Bool)
  /-- `clear(color)`. -/
  | clear (color : Bool)
  /-- `present()`. -/
  | present
  deriving DecidableEq, Repr

/-- What the display adapter holds: the shadow bitmap, and the stream of the calls made on it,
oldest first (R29, R261). -/
structure Display where
  fb : FrameBuffer
  calls : List DisplayCall
  deriving DecidableEq, Repr

/-- THE MODEL'S OWN, not the spec's state: where a step takes its two inputs from (R110). Answers
the outside world has already placed are used first, oldest first; with none placed, the input is
the free value `Config.rndDraw` or `Config.kbdDraw` of the number of draws made so far
(assumptions 2 and 3). -/
structure Inputs where
  /-- Keyboard answers already placed: `none` is no key. -/
  kbdPlaced : List (Option Key) := []
  /-- How many keyboard answers have been free draws. -/
  kbdDrawn : Nat := 0
  /-- Random bytes already placed. -/
  rndPlaced : List Byte := []
  /-- How many random bytes have been free draws. -/
  rndDrawn : Nat := 0
  deriving DecidableEq, Repr

/-! ### The state -/

/-- The state record of R20 with the parameters of R6 (`cfg`, which no instruction changes) and the
model's own `inputs`. -/
structure State where
  /-- The parameters of R6, fixed at construction (R31, R340). -/
  cfg : Params
  /-- The 4096 bytes, program, font and stack among them (R50, R32). -/
  mem : Memory
  /-- V0 to VF (R21). -/
  v : Vector Byte 16
  /-- The address register I (R25). -/
  i : Word
  /-- PC, the address of the instruction to fetch (R26). -/
  pc : Word
  /-- SP, the address of the top stack entry or `SP_EMPTY` (R27). -/
  sp : Word
  /-- The delay timer (R28). -/
  dt : Byte
  /-- The sound timer, an output of the state (R28, R244). -/
  st : Byte
  /-- The display adapter's state (R29, R261). -/
  display : Display
  /-- The run loop's instruction counter (R33). -/
  tick : Nat
  /-- `Running` or `Halted(err)` (R35). -/
  status : Status
  /-- The model's own source of step inputs (R110). -/
  inputs : Inputs
  deriving DecidableEq, Repr

/-- Construction with parameters `p`: every value is that of R36 (R22, R340, R341). -/
def State.construct (p : Params) : State where
  cfg := p
  mem := []
  v := Vector.replicate 16 0x00
  i := 0x0000
  pc := BitVec.ofNat 16 Config.loadAddr
  sp := BitVec.ofNat 16 p.spEmpty
  dt := 0x00
  st := 0x00
  display := ⟨FrameBuffer.filled false, []⟩
  tick := 0
  status := .running
  inputs := ⟨[], 0, [], 0⟩

/-- The machine right after construction, nothing loaded, with the default parameters
(assumptions 4 and 5 for the two Boolean ones). -/
def State.reset : State := State.construct {}

/-! ### Why a step stops -/

/-- The faults of a step. -/
inductive Fault where
  /-- Raised by `step` alone, in a state whose status is `Halted(err)`: "a step is taken only while
  status = Running" (R111), and "a model treats the halted state as a fault" (R303). SAFE: the
  hardware has stopped too. -/
  | haltedMachine (err : FatalError)
  deriving DecidableEq, Repr

/-- The refusals of a step. -/
inductive Refusal where
  /-- Raised by `exec` for an instruction without a meaning. No arm of this model raises it. SAFE:
  nothing is claimed of such an instruction. -/
  | notModelled (mnemonic : String)
  deriving DecidableEq, Repr

end Sys2Proof.Machine
end

