-- ==== Sys2Proof/Machine/Ops.lean ====
section
/-!
DEFINITION. The named operations over memory, registers, PC and stack, and the one operation that
takes a fatal error (spec/00_scope.md R9, R10; spec/20_memory.md; spec/41_control_flow.md R140,
R141; spec/60_exceptions.md R302). An operation that can raise answers `Except FatalError`: nothing
is written before every check has passed (R115).
-/

namespace Sys2Proof.Machine

/-- The outcome of a step of this machine. -/
abbrev Result := Host.Outcome State Fault Refusal

/-! ### Memory bytes -/

/-- The byte at an address: the listed one, else what an unlisted address reads as (R59). -/
def readMem : Memory → Nat → Byte
  | [], _ => Memory.unlisted
  | (k, b) :: rest, a => if k = a then b else readMem rest a

/-- Put byte `b` at address `a`, keeping the canonical form: the address order, and no entry equal
to the unlisted byte. -/
def writeMem (a : Nat) (b : Byte) : Memory → Memory
  | [] => if b = Memory.unlisted then [] else [(a, b)]
  | (k, c) :: rest =>
    if a < k then (if b = Memory.unlisted then (k, c) :: rest else (a, b) :: (k, c) :: rest)
    else if a = k then (if b = Memory.unlisted then rest else (a, b) :: rest)
    else (k, c) :: writeMem a b rest

/-- Put bytes at consecutive addresses from `a` (R57, R214). -/
def writeBytes (m : Memory) (a : Nat) : List Byte → Memory
  | [] => m
  | b :: rest => writeBytes (writeMem a b m) (a + 1) rest

/-- The `n` bytes from address `a` up. -/
def readBytes (m : Memory) (a : Nat) : Nat → List Byte
  | 0 => []
  | n + 1 => readMem m a :: readBytes m (a + 1) n

/-- `MemRead(a, 2)` of addresses in range: big-endian (R9, R51, R52). -/
def readWord (m : Memory) (a : Nat) : Word := wordOfBytes (readMem m a) (readMem m (a + 1))

/-- `MemWrite(a, 2, w)` to addresses in range: big-endian (R9, R51). -/
def writeWord (m : Memory) (a : Nat) (w : Word) : Memory := writeBytes m a (bytesOfWord w)

/-! ### The bounds check -/

/-- The first of the `n` byte addresses from `a` up that lies above 0xFFF, if one does (R9, R53). -/
def firstOutOfRange (a n : Nat) : Option Nat :=
  if n = 0 ∨ a + n ≤ Config.memSize then none else some (max a Config.memSize)

/-- `MemoryBounds` for an access to the `n` bytes from `a` up, if it is out of range (R53, R308). -/
def boundsError (s : State) (a n : Nat) : Option FatalError :=
  match firstOutOfRange a n with
  | none => none
  | some k => some (.memoryBounds s.pc (BitVec.ofNat 16 k))

/-! ### Errors -/

/-- TAKING A FATAL ERROR (R302): the status becomes `Halted(e)`, every other piece of state is as
before the step, and control goes nowhere. There is no return from an error (R303), so no operation
stands beside this one. -/
def State.raise (s : State) (e : FatalError) : Result := .next { s with status := .halted e }

/-- Raise the error, if there is one, before anything else is done. -/
def State.guard (s : State) (e : Option FatalError) (ok : Result) : Result :=
  match e with
  | some e => s.raise e
  | none => ok

/-- Continue with an operation's value, or raise its error from the state before the step. -/
def State.bindError {α : Type} (s : State) (r : Except FatalError α) (ok : α → Result) : Result :=
  match r with
  | .error e => s.raise e
  | .ok a => ok a

/-- The numeric code of an error (R300, decision D25); no program can observe it. -/
def FatalError.code : FatalError → Nat
  | .decodeError _ _ => 1
  | .configurationError _ _ => 2
  | .stackOverflow _ _ => 3
  | .stackUnderflow _ _ => 4
  | .loadError _ => 5
  | .memoryBounds _ _ => 6
  | .misalignedFetch _ => 7
  | .fontDigitRange _ _ => 8

/-! ### V registers -/

/-- `V[x]` (R8, R21, R22). -/
def State.getV (s : State) (x : RegIdx) : Byte := s.v.get ⟨x.toNat, x.isLt⟩

/-- `V[x] <- b` (R8, R21, R22). -/
def State.setV (s : State) (x : RegIdx) (b : Byte) : State :=
  { s with v := s.v.set x.toNat b x.isLt }

/-! ### The program counter (R114) -/

/-- `next_pc <- a + 2`, the instruction after this one. -/
def State.advance (s : State) : State := { s with pc := s.pc + 2 }

/-- A skip's `next_pc`: `a + 4` when the condition holds, else `a + 2`. -/
def State.skipIf (s : State) (c : Bool) : State := { s with pc := if c then s.pc + 4 else s.pc + 2 }

/-- `next_pc <- target`; a target is not checked when written (R150). -/
def State.jump (s : State) (target : Word) : State := { s with pc := target }

/-! ### The stack (R140, R141) -/

/-- `push(w)`: SP moves up by 2 before the write; past `SP_MAX` it raises `StackOverflow`. The sum
is exact, and the write is checked like every access (R9): with well-formed parameters that second
check never fails (R140). -/
def State.push (s : State) (w : Word) : Except FatalError State :=
  let t := s.sp.toNat + 2
  if s.cfg.spMax < t then .error (.stackOverflow s.pc s.sp)
  else
    match boundsError s t 2 with
    | some e => .error e
    | none => .ok { s with mem := writeWord s.mem t w, sp := BitVec.ofNat 16 t }

/-- `pop()`: the value at SP, and the state with SP moved down by 2; an empty stack raises
`StackUnderflow`. The read is checked like every access (R9). -/
def State.pop (s : State) : Except FatalError (Word × State) :=
  if s.sp.toNat = s.cfg.spEmpty then .error (.stackUnderflow s.pc s.sp)
  else
    match boundsError s s.sp.toNat 2 with
    | some e => .error e
    | none => .ok (readWord s.mem s.sp.toNat, { s with sp := s.sp - 2 })

/-! ### The step's inputs (R110; assumptions 2 and 3) -/

/-- The next answer of the keyboard interface: a placed one, else a free draw (R283, R284). -/
def Inputs.nextKey (q : Inputs) : Option Key :=
  match q.kbdPlaced with
  | a :: _ => a
  | [] => Config.kbdDraw q.kbdDrawn

/-- The inputs after one call of the keyboard interface: the answer is used up (R281). -/
def Inputs.takeKey (q : Inputs) : Inputs :=
  match q.kbdPlaced with
  | _ :: rest => { q with kbdPlaced := rest }
  | [] => { q with kbdDrawn := q.kbdDrawn + 1 }

/-- The next random byte of the host: a placed one, else a free draw (R183). -/
def Inputs.nextByte (q : Inputs) : Byte :=
  match q.rndPlaced with
  | b :: _ => b
  | [] => Config.rndDraw q.rndDrawn

/-- The inputs after one random byte is drawn: it is used up, "drawn fresh for each RND" (R183). -/
def Inputs.takeByte (q : Inputs) : Inputs :=
  match q.rndPlaced with
  | _ :: rest => { q with rndPlaced := rest }
  | [] => { q with rndDrawn := q.rndDrawn + 1 }

/-- The keyboard interface's answer to this step, `kbd` (R283, R284). -/
def State.kbd (s : State) : Option Key := s.inputs.nextKey

/-- The state after the keyboard answer is used up. -/
def State.takeKbd (s : State) : State := { s with inputs := s.inputs.takeKey }

/-- The random byte of this step, `rnd`: `RANDOM_FIXED` in deterministic mode (R183). -/
def State.rnd (s : State) : Byte :=
  if s.cfg.deterministic then Config.randomFixed else s.inputs.nextByte

/-- The state after the random byte is used up; deterministic mode draws none (R183). -/
def State.takeRnd (s : State) : State :=
  if s.cfg.deterministic then s else { s with inputs := s.inputs.takeByte }

/-! ### The display and keyboard attachment (R112, R306) -/

/-- `ConfigurationError(op, a)` when the display adapter, which holds the keyboard too, is not
attached. `i` is the executing instruction; each that asks has one encoding, so `encode i` is the
fetched word. -/
def State.needsDisplay (s : State) (i : Instr) : Option FatalError :=
  if s.cfg.displayAttached then none else some (.configurationError (encode i) s.pc)

end Sys2Proof.Machine
end

