-- ==== Sys2Proof/Machine/Operands.lean ====
section
/-!
DEFINITION. The operand forms (spec/30_encoding.md R82; spec/43_address_memory.md, introduction):
a register, the constant kk, the address nnn, `V0 + nnn`, a byte extended to 16 bits, the memory
block at I, and the decimal digits of a byte. No operand is sign-extended, scaled or shifted.
-/

namespace Sys2Proof.Machine

/-- `zext_16(nnn)` (R82, R143). -/
def addrWord (nnn : Addr) : Word := nnn.setWidth 16

/-- `zext_16(V[x])` (R149, R211). -/
def byteWord (b : Byte) : Word := b.setWidth 16

/-- A key as the 8-bit value a register holds (R285, R287). -/
def keyByte (k : Key) : Byte := k.setWidth 8

/-- The target of JP V0, nnn: a 16-bit sum, without wrap for any operands (R149). -/
def State.offsetTarget (s : State) (nnn : Addr) : Word := addrWord nnn + byteWord (s.getV 0x0)

/-- The registers V0 to Vx in order, x included (R214). -/
def State.regsUpTo (s : State) (x : RegIdx) : List Byte := s.v.toList.take (x.toNat + 1)

/-- The register file with V0 to Vx, x included, taken from the bytes at I; the others unchanged
(R215). -/
def State.loadUpTo (s : State) (x : RegIdx) : Vector Byte 16 :=
  Vector.ofFn fun j => if j.val ≤ x.toNat then readMem s.mem (s.i.toNat + j.val) else s.v.get j

/-- The hundreds, tens and units digits of a byte, most significant first (R213). -/
def bcdDigits (v : Byte) : List Byte :=
  [BitVec.ofNat 8 (v.toNat / 100), BitVec.ofNat 8 (v.toNat / 10 % 10), BitVec.ofNat 8 (v.toNat % 10)]

/-- The address of the glyph of digit `d`: `FONT_BASE + FONT_GLYPH_BYTES * d`, in 16 bits (R212). -/
def State.glyphAddr (s : State) (d : Byte) : Word :=
  BitVec.ofNat 16 (s.cfg.fontBase + Config.fontGlyphBytes * d.toNat)

end Sys2Proof.Machine
end

