-- ==== Sys2Proof/Machine/Keyboard.lean ====
section
/-!
DEFINITION. The key instructions (spec/46_keyboard.md R280 to R287). Each makes one call of the
keyboard interface, whose answer is the step's input `kbd`; headless, no call is made.
-/

namespace Sys2Proof.Machine

/-- "Key V[x] is pressed": the answer is a key, and it equals the whole 8-bit V[x] (R285). -/
def State.keyMatches (s : State) (x : RegIdx) : Bool :=
  match s.kbd with
  | none => false
  | some k => keyByte k == s.getV x

/-- SKP Vx (R285). -/
def execSkp (x : RegIdx) (s : State) : Result :=
  s.guard (s.needsDisplay (.skp x)) (.next (s.takeKbd.skipIf (s.keyMatches x)))

/-- SKNP Vx (R286). -/
def execSknp (x : RegIdx) (s : State) : Result :=
  s.guard (s.needsDisplay (.sknp x)) (.next (s.takeKbd.skipIf (!s.keyMatches x)))

/-- What LD Vx, K leaves: with a key, the key in V[x] and the next PC; with none, a stall, which
changes nothing but uses up the answer "no key" (R116, R284, R287). -/
def State.waitKey (s : State) (x : RegIdx) : State :=
  match s.kbd with
  | none => s.takeKbd
  | some k => (s.takeKbd.setV x (keyByte k)).advance

/-- LD Vx, K (R287). -/
def execLdVxK (x : RegIdx) (s : State) : Result :=
  s.guard (s.needsDisplay (.ldVxK x)) (.next (s.waitKey x))

/-- A step of this instruction in this state stalls: a key wait, the keyboard attached, no key
(R116, R287). "The only suspension point is the blocking key-read" (R317). -/
def State.stalls (s : State) (i : Instr) : Bool :=
  match i with
  | .ldVxK _ => s.cfg.displayAttached && s.kbd.isNone
  | _ => false

end Sys2Proof.Machine
end

