-- ==== Sys2Proof/Machine/Timers.lean ====
section
/-!
DEFINITION. The timer countdown, the run loop's counter and the timer instructions
(spec/44_timers.md R240 to R244; spec/40_execution_cycle.md R117).
-/

namespace Sys2Proof.Machine

/-- The countdown of `tick_timers()`: each timer down by one, floor at zero (R240). -/
def State.tickTimers (s : State) : State :=
  { s with
    dt := if s.dt = 0 then 0 else s.dt - 1
    st := if s.st = 0 then 0 else s.st - 1 }

/-- `tick_timers()` as its caller sees it: no effect on a halted machine (R110, R111, R240). -/
def State.tickTimersPort (s : State) : State :=
  match s.status with
  | .halted _ => s
  | .running => s.tickTimers

/-- The run loop after a completed step: count it, and after the N-th tick the timers and start
the count again (R33, R117). -/
def State.countStep (s : State) : State :=
  if s.tick + 1 = s.cfg.timerDivider then { s.tickTimers with tick := 0 }
  else { s with tick := s.tick + 1 }

/-- LD Vx, DT (R241). -/
def execLdVxDT (x : RegIdx) (s : State) : Result := .next (s.setV x s.dt).advance

/-- LD DT, Vx (R242). -/
def execLdDTVx (x : RegIdx) (s : State) : Result := .next { s with dt := s.getV x }.advance

/-- LD ST, Vx (R243). -/
def execLdSTVx (x : RegIdx) (s : State) : Result := .next { s with st := s.getV x }.advance

end Sys2Proof.Machine
end

