-- ==== Sys2Proof/Machine/Cycle.lean ====
section
/-!
DEFINITION. What a run-loop iteration does around the execution of an instruction: the fetch and
its checks before it, the count of completed steps after it (spec/40_execution_cycle.md R112, R117,
R118; spec/60_exceptions.md R304).
-/

namespace Sys2Proof.Machine

/-- Fetch and decode at PC, with the checks in the order of R112 and R304: alignment, bounds,
decode. -/
def State.fetch (s : State) : Except FatalError Instr :=
  if s.pc.toNat % 2 = 1 then .error (.misalignedFetch s.pc)
  else
    match boundsError s s.pc.toNat Config.insnBytes with
    | some e => .error e
    | none =>
      match decode (readWord s.mem s.pc.toNat) with
      | none => .error (.decodeError (readWord s.mem s.pc.toNat) s.pc)
      | some i => .ok i

/-- The run loop after the execution of `i` from `s` gave `t`: a completed step is counted, a
stalled step is not, and an error stops the loop (R117, R118). -/
def State.afterExec (s : State) (i : Instr) (t : State) : State :=
  match t.status with
  | .halted _ => t
  | .running => if s.stalls i then t else t.countStep

/-- The answer of a whole step, from the answer of the execution of `i` at `s`. -/
def State.finish (s : State) (i : Instr) (r : Result) : Result :=
  match r with
  | .next t => .next (s.afterExec i t)
  | .fault f => .fault f
  | .refused f => .refused f

/-- `s` with the bytes of one instruction stored at PC, where the next step fetches; unchanged
where PC has no two bytes of memory to fetch from. -/
def State.storeAtPc (s : State) (bytes : List Byte) : State :=
  match boundsError s s.pc.toNat Config.insnBytes with
  | some _ => s
  | none => { s with mem := writeBytes s.mem s.pc.toNat (bytes.take Config.insnBytes) }

end Sys2Proof.Machine
end

