-- ==== Sys2Proof/Machine/AddressMemory.lean ====
section
/-!
DEFINITION. The address register and memory instructions (spec/43_address_memory.md R210 to R216).
None changes I as a side effect (R25, decision D10); addresses are `I + offset` without wrap, every
byte checked before any write (R213 to R215, R308).
-/

namespace Sys2Proof.Machine

/-- LD I, nnn (R210). -/
def execLdI (nnn : Addr) (s : State) : Result := .next { s with i := addrWord nnn }.advance

/-- ADD I, Vx: wraps at 16 bits, no flag (R211). -/
def execAddIVx (x : RegIdx) (s : State) : Result :=
  .next { s with i := s.i + byteWord (s.getV x) }.advance

/-- LD F, Vx: `FontDigitRange` above 0xF (R212). -/
def execLdFVx (x : RegIdx) (s : State) : Result :=
  if 0xF < (s.getV x).toNat then s.raise (.fontDigitRange s.pc (s.getV x))
  else .next { s with i := s.glyphAddr (s.getV x) }.advance

/-- LD B, Vx: three decimal digits at I (R213; assumption 8 for the address recorded with
I = 0xFFFE). -/
def execLdBVx (x : RegIdx) (s : State) : Result :=
  s.guard (boundsError s s.i.toNat 3)
    (.next { s with mem := writeBytes s.mem s.i.toNat (bcdDigits (s.getV x)) }.advance)

/-- LD [I], Vx: V0 to Vx to the bytes at I (R214). -/
def execLdMemVx (x : RegIdx) (s : State) : Result :=
  s.guard (boundsError s s.i.toNat (x.toNat + 1))
    (.next { s with mem := writeBytes s.mem s.i.toNat (s.regsUpTo x) }.advance)

/-- LD Vx, [I]: V0 to Vx from the bytes at I (R215). -/
def execLdVxMem (x : RegIdx) (s : State) : Result :=
  s.guard (boundsError s s.i.toNat (x.toNat + 1)) (.next { s with v := s.loadUpTo x }.advance)

end Sys2Proof.Machine
end

