-- ==== Sys2Proof/Machine/Flags.lean ====
section
/-!
DEFINITION. Every value an instruction writes to VF as a flag (spec/10_state.md R23, R24;
spec/42_alu.md R170). A flag is exactly 0 or 1, and is written before the destination.
-/

namespace Sys2Proof.Machine

/-- A truth value as a flag byte: exactly 0 or 1 (R170). -/
def flagByte (c : Bool) : Byte := if c then 1 else 0

/-- Carry of an addition: 1 iff the widened sum exceeds 255 (R177). -/
def carryFlag (a b : Byte) : Byte := flagByte (decide (255 < a.toNat + b.toNat))

/-- "No borrow" of `a - b`: 1 iff `a >= b` (R178, R180). -/
def noBorrowFlag (a b : Byte) : Byte := flagByte (decide (b.toNat ≤ a.toNat))

/-- The bit a right shift drops, bit 0 (R179). -/
def shiftedOutRight (a : Byte) : Byte := flagByte (a.getLsbD 0)

/-- The bit a left shift drops, bit 7 (R181). -/
def shiftedOutLeft (a : Byte) : Byte := flagByte (a.getLsbD 7)

/-- DRW's collision flag (R263). -/
def collisionFlag (c : Bool) : Byte := flagByte c

/-- `VF <- flag`, then `V[x] <- result`: with x = 0xF the result is what VF holds (R24, R113). -/
def State.flagThenDest (s : State) (x : RegIdx) (flag result : Byte) : State :=
  (s.setV Config.flagReg flag).setV x result

end Sys2Proof.Machine
end

