-- ==== Sys2Proof/Machine/Alu.lean ====
section
/-!
DEFINITION. The register and ALU instructions (spec/42_alu.md R170 to R183). Every operand is read
from the state before the step (R113); where there is a flag it is written before the destination
(R24). `BitVec` addition and subtraction of 8 bits are the truncated ones of R170.
-/

namespace Sys2Proof.Machine

/-- LD Vx, kk (R171). -/
def execLdImm (x : RegIdx) (kk : Byte) (s : State) : Result := .next (s.setV x kk).advance

/-- ADD Vx, kk: wraps, no flag (R172). -/
def execAddImm (x : RegIdx) (kk : Byte) (s : State) : Result :=
  .next (s.setV x (s.getV x + kk)).advance

/-- LD Vx, Vy (R173). -/
def execLdReg (x y : RegIdx) (s : State) : Result := .next (s.setV x (s.getV y)).advance

/-- OR Vx, Vy (R174). -/
def execOrReg (x y : RegIdx) (s : State) : Result :=
  .next (s.setV x (s.getV x ||| s.getV y)).advance

/-- AND Vx, Vy (R175). -/
def execAndReg (x y : RegIdx) (s : State) : Result :=
  .next (s.setV x (s.getV x &&& s.getV y)).advance

/-- XOR Vx, Vy (R176). -/
def execXorReg (x y : RegIdx) (s : State) : Result :=
  .next (s.setV x (s.getV x ^^^ s.getV y)).advance

/-- ADD Vx, Vy with carry out (R177). -/
def execAddReg (x y : RegIdx) (s : State) : Result :=
  .next (s.flagThenDest x (carryFlag (s.getV x) (s.getV y)) (s.getV x + s.getV y)).advance

/-- SUB Vx, Vy (R178). -/
def execSubReg (x y : RegIdx) (s : State) : Result :=
  .next (s.flagThenDest x (noBorrowFlag (s.getV x) (s.getV y)) (s.getV x - s.getV y)).advance

/-- SHR Vx: logical, by 1; the y nibble is ignored (R179). -/
def execShr (x : RegIdx) (s : State) : Result :=
  .next (s.flagThenDest x (shiftedOutRight (s.getV x)) (s.getV x >>> 1)).advance

/-- SUBN Vx, Vy: the roles of SUB's operands swapped (R180). -/
def execSubnReg (x y : RegIdx) (s : State) : Result :=
  .next (s.flagThenDest x (noBorrowFlag (s.getV y) (s.getV x)) (s.getV y - s.getV x)).advance

/-- SHL Vx: by 1, truncated; the y nibble is ignored (R181). -/
def execShl (x : RegIdx) (s : State) : Result :=
  .next (s.flagThenDest x (shiftedOutLeft (s.getV x)) (s.getV x <<< 1)).advance

/-- RND Vx, kk: the step's random byte and the constant (R182, R183). -/
def execRnd (x : RegIdx) (kk : Byte) (s : State) : Result :=
  .next (s.takeRnd.setV x (s.rnd &&& kk)).advance

end Sys2Proof.Machine
end

