-- ==== Sys2Proof/Machine/ControlFlow.lean ====
section
/-!
DEFINITION. The control-flow instructions (spec/41_control_flow.md R142 to R151). `s.pc` is the
address of the executing instruction.
-/

namespace Sys2Proof.Machine

/-- RET: `next_pc <- pop()` (R142). -/
def execRet (s : State) : Result := s.bindError s.pop fun r => .next (r.2.jump r.1)

/-- JP nnn (R143). -/
def execJp (nnn : Addr) (s : State) : Result := .next (s.jump (addrWord nnn))

/-- CALL nnn: push the address after the call, then jump (R144). -/
def execCall (nnn : Addr) (s : State) : Result :=
  s.bindError (s.push (s.pc + 2)) fun t => .next (t.jump (addrWord nnn))

/-- SE Vx, kk (R145). -/
def execSeImm (x : RegIdx) (kk : Byte) (s : State) : Result := .next (s.skipIf (s.getV x == kk))

/-- SNE Vx, kk (R146). -/
def execSneImm (x : RegIdx) (kk : Byte) (s : State) : Result := .next (s.skipIf (s.getV x != kk))

/-- SE Vx, Vy (R147). -/
def execSeReg (x y : RegIdx) (s : State) : Result := .next (s.skipIf (s.getV x == s.getV y))

/-- SNE Vx, Vy (R148). -/
def execSneReg (x y : RegIdx) (s : State) : Result := .next (s.skipIf (s.getV x != s.getV y))

/-- JP V0, nnn (R149). -/
def execJpV0 (nnn : Addr) (s : State) : Result := .next (s.jump (s.offsetTarget nnn))

end Sys2Proof.Machine
end

