-- ==== Sys2Proof/Machine/Display.lean ====
section
/-!
DEFINITION. The display interface and the display instructions (spec/45_display.md R260 to R263).
-/

namespace Sys2Proof.Machine

/-! ### The interface (R260, R261) -/

/-- `get_pixel(x, y)`: a pure read of the shadow bitmap. -/
def Display.getPixel (d : Display) (px : Fin 64) (py : Fin 32) : Bool := (d.fb.get px).get py

/-- `draw_pixel(x, y, c)`: record the pixel, and emit the call. -/
def Display.drawPixel (d : Display) (px : Fin 64) (py : Fin 32) (c : Bool) : Display where
  fb := d.fb.set px.val ((d.fb.get px).set py.val c py.isLt) px.isLt
  calls := d.calls ++ [.drawPixel px py c]

/-- `clear(c)`: every pixel to c, and emit the call. -/
def Display.clear (d : Display) (c : Bool) : Display where
  fb := FrameBuffer.filled c
  calls := d.calls ++ [.clear c]

/-- `present()`: emit the call; the host's surface is outside the core. -/
def Display.present (d : Display) : Display := { d with calls := d.calls ++ [.present] }

/-! ### The blit of DRW (R263) -/

/-- A draw under way: the display, and whether a set pixel has been turned off. -/
structure Blit where
  display : Display
  collision : Bool
  deriving DecidableEq, Repr

/-- One sprite bit that is 1: XOR the pixel, and note a collision. -/
def Blit.pixel (b : Blit) (px : Fin 64) (py : Fin 32) : Blit :=
  let old := b.display.getPixel px py
  { display := b.display.drawPixel px py (!old), collision := b.collision || old }

/-- The columns `js` of one sprite row, bit 7 leftmost; the x coordinate wraps at 64. -/
def Blit.columns (b : Blit) (row : Byte) (cx : Nat) (py : Fin 32) : List Nat → Blit
  | [] => b
  | j :: rest =>
    (if row.getLsbD (7 - j) then b.pixel (Fin.ofNat 64 (cx + j)) py else b).columns row cx py rest

/-- The sprite rows from the y coordinate `cy` down; it wraps at 32. -/
def Blit.rows (b : Blit) (cx cy : Nat) : List Byte → Blit
  | [] => b
  | row :: rest =>
    (b.columns row cx (Fin.ofNat 32 cy) (List.range 8)).rows cx (cy + 1) rest

/-- The whole blit of DRW at the coordinates `cx`, `cy` of the sprite `rows`. -/
def blit (d : Display) (cx cy : Nat) (rows : List Byte) : Blit := (Blit.mk d false).rows cx cy rows

/-! ### The instructions -/

/-- CLS (R262). -/
def execCls (s : State) : Result :=
  s.guard (s.needsDisplay .cls) (.next { s with display := (s.display.clear false).present }.advance)

/-- DRW Vx, Vy, n (R263): n rows from I, blitted at V[x], V[y]; VF is written after the blit, and
the picture is presented once. -/
def execDrw (x y : RegIdx) (n : Nibble) (s : State) : Result :=
  s.guard (s.needsDisplay (.drw x y n)) (s.guard (boundsError s s.i.toNat n.toNat)
    (let b := blit s.display (s.getV x).toNat (s.getV y).toNat (readBytes s.mem s.i.toNat n.toNat)
     .next ({ s with display := b.display.present }.setV Config.flagReg
       (collisionFlag b.collision)).advance))

end Sys2Proof.Machine
end

