-- ==== Sys2Proof/Machine/Step.lean ====
section
/-!
DEFINITION. One step of the machine: one iteration of the run loop (spec/40_execution_cycle.md
R111, R112, R117).
-/

namespace Sys2Proof.Machine

/-- One run-loop iteration. A halted machine takes no step (R111, R303); a fetch error is taken as
a fatal error (R112, R302); else the decoded instruction is executed and the step is counted. -/
def step (s : State) : Host.Outcome State Fault Refusal :=
  match s.status with
  | .halted e => .fault (.haltedMachine e)
  | .running =>
    match s.fetch with
    | .error e => s.raise e
    | .ok i => s.finish i (exec i s)

/-- The state with the instruction of the table's bits `w` stored where the next step fetches. -/
def State.withFetchWord (s : State) (nbits w : Nat) : State := s.storeAtPc (tableBytes nbits w)

end Sys2Proof.Machine
end

