-- ==== Sys2Proof/Machine/LoadPort.lean ====
section
/-!
DEFINITION. The host's side of the core: the `load` port and the boot sequence
(spec/20_memory.md R57; spec/60_exceptions.md R311; spec/70_reset_and_hazards.md R342, R349).
These are operations of the host between steps; no step takes them.
-/

namespace Sys2Proof.Machine

/-- `load(bytes, offset)`; `none` is a source that cannot be read. A failing load halts the machine
with `LoadError` and writes nothing; on a halted machine it has no effect (R57, R111, R311). -/
def State.load (s : State) (src : Option (List Byte)) (offset : Nat) : State :=
  match s.status with
  | .halted _ => s
  | .running =>
    match src with
    | none => { s with status := .halted (.loadError .unreadable) }
    | some bytes =>
      if Config.memSize < offset + bytes.length then
        { s with status := .halted (.loadError .doesNotFit) }
      else { s with mem := writeBytes s.mem offset bytes }

/-- The boot sequence before the run loop starts: construct, load the font, load the program
(R342). -/
def State.boot (p : Params) (font rom : Option (List Byte)) : State :=
  ((State.construct p).load font p.fontBase).load rom Config.loadAddr

end Sys2Proof.Machine
end

