-- ==== Sys2Proof/Safety.lean ====
section
/-!
DEFINITION. The terms claims use: the invariant of every reachable state, the end of a run and
what is observed of it (spec/70_reset_and_hazards.md R348), and which words are illegal
(spec/30_encoding.md R88).
-/

namespace Sys2Proof

/-! ### Instructions by what they touch -/

/-- `needs_display(ins)`: CLS, DRW, SKP, SKNP and LD Vx, K, rows 1, 23, 24, 25 and 27 (R112). -/
def Instr.usesDisplay (i : Instr) : Bool := [1, 23, 24, 25, 27].contains i.rowNumber

/-- The skips: SE and SNE in both forms, SKP and SKNP, rows 5, 6, 7, 19, 24 and 25 (R114). -/
def Instr.isSkip (i : Instr) : Bool := [5, 6, 7, 19, 24, 25].contains i.rowNumber

/-- RET, JP, CALL and JP V0, rows 2, 3, 4 and 21: PC becomes their target (R114). -/
def Instr.isTransfer (i : Instr) : Bool := [2, 3, 4, 21].contains i.rowNumber

/-- The instructions that write VF as a flag: ADD Vx, Vy, SUB, SHR, SUBN, SHL and DRW, rows 14 to 18
and 23 (R23). -/
def Instr.writesFlag (i : Instr) : Bool := [14, 15, 16, 17, 18, 23].contains i.rowNumber

/-- The V registers an instruction names as its destination (R171 to R182, R215, R241, R287). -/
def Instr.destinations (i : Instr) (r : RegIdx) : Bool :=
  match i with
  | .ldImm x _ | .addImm x _ | .rnd x _ => r == x
  | .ldReg x _ | .orReg x _ | .andReg x _ | .xorReg x _ | .addReg x _ | .subReg x _
  | .subnReg x _ => r == x
  | .shr x | .shl x | .ldVxDT x | .ldVxK x => r == x
  | .ldVxMem x => decide (r.toNat ≤ x.toNat)
  | .cls | .ret | .jp _ | .call _ | .seImm _ _ | .sneImm _ _ | .seReg _ _ | .sneReg _ _ | .ldI _
  | .jpV0 _ | .drw _ _ _ | .skp _ | .sknp _ | .ldDTVx _ | .ldSTVx _ | .addIVx _ | .ldFVx _
  | .ldBVx _ | .ldMemVx _ => false

end Sys2Proof

namespace Sys2Proof.Machine

/-! ### The invariant -/

/-- SP lies in `{SP_EMPTY, STACK_BASE, STACK_BASE+2, ..., SP_MAX}` (R27). -/
def State.stackOk (s : State) : Bool :=
  decide (s.sp.toNat = s.cfg.spEmpty) ||
    (decide (s.cfg.stackBase ≤ s.sp.toNat) && decide (s.sp.toNat ≤ s.cfg.spMax) &&
      decide ((s.sp.toNat - s.cfg.stackBase) % 2 = 0))

/-- `tick` lies in `0 .. N-1` (R20, R33). -/
def State.tickOk (s : State) : Bool := decide (s.tick < s.cfg.timerDivider)

/-- Without a display no pixel is set and no call was made: FB exists only when attached (R29). -/
def State.headlessOk (s : State) : Bool :=
  s.cfg.displayAttached || (s.display == ⟨FrameBuffer.filled false, []⟩)

/-- A halted state is the state before the faulting instruction: the recorded PC and SP are the
state's own (R302). -/
def State.haltOk (s : State) : Bool :=
  match s.status with
  | .running => true
  | .halted (.decodeError _ pc) => pc == s.pc
  | .halted (.configurationError _ pc) => pc == s.pc
  | .halted (.stackOverflow pc sp) => pc == s.pc && sp == s.sp
  | .halted (.stackUnderflow pc sp) => pc == s.pc && sp == s.sp
  | .halted (.loadError _) => true
  | .halted (.memoryBounds pc _) => pc == s.pc
  | .halted (.misalignedFetch pc) => pc == s.pc
  | .halted (.fontDigitRange pc _) => pc == s.pc

/-- The invariant of every reachable state: well-formed parameters, the canonical memory, a legal
SP, a legal `tick`, an untouched display when headless, a precise halt. -/
def State.inv (s : State) : Bool :=
  s.cfg.wellFormed && Memory.wf s.mem && s.stackOk && s.tickOk && s.headlessOk && s.haltOk

/-! ### The end of a run (R348) -/

/-- A state has stopped: running, PC even and at most 0xFFE, and the word at PC is a jump to PC. -/
def State.stopped (s : State) : Bool :=
  decide (s.status = .running) && decide (s.pc.toNat % 2 = 0) && decide (s.pc.toNat ≤ 0xFFE) &&
    (readWord s.mem s.pc.toNat == (0x1000 ||| s.pc))

/-- What is observed of a state at the end of a run: all but `tick`, DT and ST, here set to 0. -/
def State.observation (s : State) : State := { s with tick := 0, dt := 0, st := 0 }

/-- The end of the run from `s`, if it is reached within `k` steps: the first state that has
stopped. A halted state, or a run that never stops, is no end. -/
def runEnd : Nat → State → Option State
  | 0, s => if s.stopped then some s else none
  | k + 1, s =>
    if s.stopped then some s
    else
      match step s with
      | .next t => runEnd k t
      | .fault _ => none
      | .refused _ => none

/-! ### Words that decode to nothing (R88) -/

/-- The words R88 lists under (a) to (d), as a predicate on the word alone. -/
def illegalWord (op : Word) : Bool :=
  (fieldO op == 0x0 && op != 0x00E0 && op != 0x00EE) ||
  (fieldO op == 0x8 && [0x8, 0x9, 0xA, 0xB, 0xC, 0xD, 0xF].contains (fieldN op)) ||
  (fieldO op == 0xE && fieldKK op != 0x9E && fieldKK op != 0xA1) ||
  (fieldO op == 0xF &&
    !([0x07, 0x0A, 0x15, 0x18, 0x1E, 0x29, 0x33, 0x55, 0x65].contains (fieldKK op)))

/-! ### Frames: what two states have in common -/

/-- Every V register outside `changed` is the same. -/
def SameV (s t : State) (changed : List RegIdx) : Prop :=
  ∀ r, r ∉ changed → t.getV r = s.getV r

/-- Every byte of memory is the same. -/
def SameMem (s t : State) : Prop := ∀ a, readMem t.mem a = readMem s.mem a

/-- Every byte of memory outside the `n` bytes from `lo` up is the same. -/
def SameMemOutside (s t : State) (lo n : Nat) : Prop :=
  ∀ a, a < lo ∨ lo + n ≤ a → readMem t.mem a = readMem s.mem a

/-- Both timers are the same. -/
def SameTimers (s t : State) : Prop := t.dt = s.dt ∧ t.st = s.st

/-- The parameters, the run loop's counter and the status are the same. -/
def SameBase (s t : State) : Prop := t.cfg = s.cfg ∧ t.tick = s.tick ∧ t.status = s.status

/-- All is the same but PC and the V registers in `changed`. -/
def SameBut (s t : State) (changed : List RegIdx) : Prop :=
  SameV s t changed ∧ SameMem s t ∧ t.i = s.i ∧ t.sp = s.sp ∧ SameTimers s t ∧
    t.display = s.display ∧ t.inputs = s.inputs ∧ SameBase s t

/-- The execution answers a next state in which PC is past the instruction, `V[x]` is `v`, and all
else is the same (a register result without a flag). -/
def GivesRegister (r : Host.Outcome State Fault Refusal) (s : State) (x : RegIdx) (v : Byte) :
    Prop :=
  ∃ t, r = .next t ∧ t.pc = s.pc + 2 ∧ t.getV x = v ∧ SameBut s t [x]

/-- The execution answers a next state in which PC is past the instruction, `V[x]` is `v`, VF is
`flag` unless x is 0xF, and all else is the same (a register result with a flag, R24). -/
def GivesRegisterAndFlag (r : Host.Outcome State Fault Refusal) (s : State) (x : RegIdx)
    (v flag : Byte) : Prop :=
  ∃ t, r = .next t ∧ t.pc = s.pc + 2 ∧ t.getV x = v ∧
    (x ≠ Config.flagReg → t.getV Config.flagReg = flag) ∧ SameBut s t [x, Config.flagReg]

/-- The execution answers a next state with this PC in which all else is the same. -/
def GivesPc (r : Host.Outcome State Fault Refusal) (s : State) (pc : Word) : Prop :=
  ∃ t, r = .next t ∧ t.pc = pc ∧ SameBut s t []

/-- The execution takes this fatal error: the status is `Halted(e)` and all else is as before. -/
def Raises (r : Host.Outcome State Fault Refusal) (s : State) (e : FatalError) : Prop :=
  r = .next { s with status := .halted e }

/-! ### The sprite as a picture (R263) -/

/-- The sprite bit that DRW at coordinates `cx`, `cy` lays over pixel (px, py): row
`(py - cy) mod 32` of the sprite, column `(px - cx) mod 64`, off outside it. -/
def spriteBit (rows : List Byte) (cx cy : Nat) (px : Fin 64) (py : Fin 32) : Bool :=
  let j := (px.val + 64 - cx % 64) % 64
  let k := (py.val + 32 - cy % 32) % 32
  decide (j < 8) && (rows.getD k 0).getLsbD (7 - j)

end Sys2Proof.Machine
end

