-- ==== Sys2Proof/Certificates/Slice0/Obligations.lean ====
section
/-!
DEFINITION. The statements about the machine. Each docstring names the rules of spec/ it
formalises. The outcome of a fatal error is a next state whose status is `Halted` (assumption 1).
-/

open Sys2Proof Sys2Proof.Machine

/-! ### Encoding -/

/-- One word of each family, written out from R90 and the vectors of spec/95_test_vectors.md, decodes
to the instruction it stands for. -/
def Obligations.SpecWordsDecode : Prop :=
  decode 0x00E0 = some .cls ∧ decode 0x00EE = some .ret ∧ decode 0x2210 = some (.call 0x210) ∧
  decode 0x512F = some (.seReg 0x1 0x2) ∧ decode 0x6A7B = some (.ldImm 0xA 0x7B) ∧
  decode 0x80F6 = some (.shr 0x0) ∧ decode 0xF265 = some (.ldVxMem 0x2) ∧
  decode 0xF307 = some (.ldVxDT 0x3) ∧ decode 0xD012 = some (.drw 0x0 0x1 0x2) ∧
  decode 0xE4A1 = some (.sknp 0x4) ∧ decode 0xC30F = some (.rnd 0x3 0x0F)

/-- R83 and R84: the two full-word instructions, and nibble 0xE with the full low byte. -/
def Obligations.FullWordAndKeySkipStages : Prop :=
  decode 0x00E0 = some .cls ∧ decode 0x00EE = some .ret ∧
  ∀ op, fieldO op = 0xE →
    (fieldKK op = 0x9E → decode op = some (.skp (fieldX op))) ∧
    (fieldKK op = 0xA1 → decode op = some (.sknp (fieldX op)))

/-- R85: the leftmost nibble alone selects a single-purpose opcode, whatever the other bits are; in
particular the low nibble of 5xyN and 9xyN. -/
def Obligations.SinglePurposeNibbleTable : Prop :=
  ∀ op,
    (fieldO op = 0x1 → decode op = some (.jp (fieldNNN op))) ∧
    (fieldO op = 0x2 → decode op = some (.call (fieldNNN op))) ∧
    (fieldO op = 0x3 → decode op = some (.seImm (fieldX op) (fieldKK op))) ∧
    (fieldO op = 0x4 → decode op = some (.sneImm (fieldX op) (fieldKK op))) ∧
    (fieldO op = 0x5 → decode op = some (.seReg (fieldX op) (fieldY op))) ∧
    (fieldO op = 0x6 → decode op = some (.ldImm (fieldX op) (fieldKK op))) ∧
    (fieldO op = 0x7 → decode op = some (.addImm (fieldX op) (fieldKK op))) ∧
    (fieldO op = 0x9 → decode op = some (.sneReg (fieldX op) (fieldY op))) ∧
    (fieldO op = 0xA → decode op = some (.ldI (fieldNNN op))) ∧
    (fieldO op = 0xB → decode op = some (.jpV0 (fieldNNN op))) ∧
    (fieldO op = 0xC → decode op = some (.rnd (fieldX op) (fieldKK op))) ∧
    (fieldO op = 0xD → decode op = some (.drw (fieldX op) (fieldY op) (fieldN op)))

/-- R86: the 8 table by the rightmost nibble; SHR and SHL ignore the y nibble (R179, R181); the
seven other nibbles decode to nothing. -/
def Obligations.EightTable : Prop :=
  ∀ op, fieldO op = 0x8 →
    (fieldN op = 0x0 → decode op = some (.ldReg (fieldX op) (fieldY op))) ∧
    (fieldN op = 0x1 → decode op = some (.orReg (fieldX op) (fieldY op))) ∧
    (fieldN op = 0x2 → decode op = some (.andReg (fieldX op) (fieldY op))) ∧
    (fieldN op = 0x3 → decode op = some (.xorReg (fieldX op) (fieldY op))) ∧
    (fieldN op = 0x4 → decode op = some (.addReg (fieldX op) (fieldY op))) ∧
    (fieldN op = 0x5 → decode op = some (.subReg (fieldX op) (fieldY op))) ∧
    (fieldN op = 0x6 → decode op = some (.shr (fieldX op))) ∧
    (fieldN op = 0x7 → decode op = some (.subnReg (fieldX op) (fieldY op))) ∧
    (fieldN op = 0xE → decode op = some (.shl (fieldX op))) ∧
    (fieldN op ∈ [0x8, 0x9, 0xA, 0xB, 0xC, 0xD, 0xF] → decode op = none)

/-- R87: the F table by the low byte; every other low byte decodes to nothing. -/
def Obligations.FTable : Prop :=
  ∀ op, fieldO op = 0xF →
    (fieldKK op = 0x07 → decode op = some (.ldVxDT (fieldX op))) ∧
    (fieldKK op = 0x0A → decode op = some (.ldVxK (fieldX op))) ∧
    (fieldKK op = 0x15 → decode op = some (.ldDTVx (fieldX op))) ∧
    (fieldKK op = 0x18 → decode op = some (.ldSTVx (fieldX op))) ∧
    (fieldKK op = 0x1E → decode op = some (.addIVx (fieldX op))) ∧
    (fieldKK op = 0x29 → decode op = some (.ldFVx (fieldX op))) ∧
    (fieldKK op = 0x33 → decode op = some (.ldBVx (fieldX op))) ∧
    (fieldKK op = 0x55 → decode op = some (.ldMemVx (fieldX op))) ∧
    (fieldKK op = 0x65 → decode op = some (.ldVxMem (fieldX op))) ∧
    (fieldKK op ∉ [0x07, 0x0A, 0x15, 0x18, 0x1E, 0x29, 0x33, 0x55, 0x65] → decode op = none)

/-- R88 and R305: the words that decode to nothing are exactly (a) to (d), and a running machine
that fetches one takes `DecodeError` with the word and PC. -/
def Obligations.IllegalWordsAreDecodeErrors : Prop :=
  (∀ op, decode op = none ↔
    (fieldO op = 0x0 ∧ op ≠ 0x00E0 ∧ op ≠ 0x00EE) ∨
    (fieldO op = 0x8 ∧ fieldN op ∈ [0x8, 0x9, 0xA, 0xB, 0xC, 0xD, 0xF]) ∨
    (fieldO op = 0xE ∧ fieldKK op ≠ 0x9E ∧ fieldKK op ≠ 0xA1) ∨
    (fieldO op = 0xF ∧
      fieldKK op ∉ [0x07, 0x0A, 0x15, 0x18, 0x1E, 0x29, 0x33, 0x55, 0x65])) ∧
  ∀ s : State, s.status = .running → s.pc.toNat % 2 = 0 → s.pc.toNat ≤ 0xFFE →
    decode (readWord s.mem s.pc.toNat) = none →
    Raises (step s) s (.decodeError (readWord s.mem s.pc.toNat) s.pc)

/-- Decoding inverts encoding, for every instruction with every value of its fields, as a word and
as bytes followed by any others (R89, R90). -/
def Obligations.DecodeInvertsEncode : Prop :=
  ∀ (i : Instr) (rest : List Byte),
    decode (encode i) = some i ∧ decodeBytes (encodeBytes i ++ rest) = some (i, rest)

/-- R90: a word decodes to an instruction of row r exactly when it matches row r, so it matches no
other row; a word that matches no row decodes to nothing. -/
def Obligations.OpcodeMapDecidesTheRow : Prop :=
  ∀ (op : Word) (r : OpcodeRow), r ∈ opcodeRows →
    (op &&& r.mask = r.pattern ↔ ∃ i, decode op = some i ∧ i.rowNumber = r.number)

/-! ### Reset and the host's side -/

/-- Construction with any parameters leaves the values of R36; the machine at reset is the one
constructed with the defaults of R6, so it has those values too, SP being 0x0E9E. The display attached and the random byte fixed are the model's choice of defaults (assumptions 4
and 5); that no input is placed and no draw counted is the model's own (assumptions 2 and 3). -/
def Obligations.ConstructionLeavesTheResetValues : Prop :=
  (∀ p : Params, ∀ s, s = State.construct p →
    (∀ a, readMem s.mem a = 0x00) ∧ (∀ r, s.getV r = 0x00) ∧ s.i = 0x0000 ∧ s.pc = 0x200 ∧
    s.sp = BitVec.ofNat 16 p.spEmpty ∧ s.dt = 0x00 ∧ s.st = 0x00 ∧
    (∀ px py, s.display.getPixel px py = false) ∧ s.display.calls = [] ∧ s.tick = 0 ∧
    s.status = .running ∧ s.cfg = p ∧ s.inputs = {}) ∧
  State.reset = State.construct
    { timerDivider := 8, fontBase := 0x000, stackBase := 0x0EA0, stackDepth := 16,
      displayAttached := true, deterministic := true } ∧
  State.reset.sp = 0x0E9E

/-- R22: a register reads as the last value written to it, other registers are untouched by the
write, and after construction every register holds 0. -/
def Obligations.RegistersReadAsLastWritten : Prop :=
  (∀ (s : State) (x r : RegIdx) (b : Byte),
    (s.setV x b).getV r = if r = x then b else s.getV r) ∧
  ∀ (p : Params) (r : RegIdx), (State.construct p).getV r = 0x00

/-- The invariant holds after construction with well-formed parameters, and at reset. -/
def Obligations.InvariantAtConstruction : Prop :=
  (∀ p : Params, p.wellFormed = true → (State.construct p).inv = true) ∧ State.reset.inv = true

/-- Every step keeps the invariant: the parameters stay well formed, memory canonical, SP in
`{SP_EMPTY, STACK_BASE, ..., SP_MAX}` (R27), `tick` in 0..N-1 (R33), the display untouched when
headless (R29), and a halt is precise (R302). -/
def Obligations.EveryStepKeepsTheInvariant : Prop :=
  ∀ s t : State, s.inv = true → step s = .next t → t.inv = true

/-- R57: `load` copies the bytes verbatim and changes nothing else; a source that cannot be read,
or an image whose last byte would land beyond 0xFFF, is `LoadError` and writes nothing. Which cause
each records is the model's choice (assumption 17). The premise on memory is part of the
invariant. -/
def Obligations.LoadPortCopiesOrHalts : Prop :=
  ∀ (s : State) (offset : Nat), s.status = .running → Memory.wf s.mem = true →
    s.load none offset = { s with status := .halted (.loadError .unreadable) } ∧
    ∀ bytes : List Byte,
      (4096 < offset + bytes.length →
        s.load (some bytes) offset = { s with status := .halted (.loadError .doesNotFit) }) ∧
      (offset + bytes.length ≤ 4096 →
        (∀ k b, bytes[k]? = some b → readMem (s.load (some bytes) offset).mem (offset + k) = b) ∧
        SameMemOutside s (s.load (some bytes) offset) offset bytes.length ∧
        Memory.wf (s.load (some bytes) offset).mem = true ∧
        { s.load (some bytes) offset with mem := s.mem } = s)

/-- R342: after the boot sequence with a font and a program that fit, the font stands at
`FONT_BASE` where the program does not cover it, the program at 0x200, the machine is running, PC
is 0x200, and all but memory is as after construction. -/
def Obligations.BootPlacesFontAndProgram : Prop :=
  ∀ (p : Params) (font rom : List Byte), p.fontBase + font.length ≤ 4096 →
    0x200 + rom.length ≤ 4096 →
    (∀ k b, rom[k]? = some b →
      readMem (State.boot p (some font) (some rom)).mem (0x200 + k) = b) ∧
    (∀ k b, font[k]? = some b →
      (p.fontBase + k < 0x200 ∨ 0x200 + rom.length ≤ p.fontBase + k) →
      readMem (State.boot p (some font) (some rom)).mem (p.fontBase + k) = b) ∧
    { State.boot p (some font) (some rom) with mem := [] } = State.construct p

/-! ### The step -/

/-- When the word at PC of a running machine decodes to `i`, the step is `exec i`; a next state
of `exec` that halted or stalled is the step's own, any other is counted by the run loop: after
the N-th completed step the timers tick and the count restarts (R112, R117, R118). -/
def Obligations.StepRunsTheDecodedInstruction : Prop :=
  ∀ (s t : State) (i : Instr), s.status = .running → s.pc.toNat % 2 = 0 → s.pc.toNat ≤ 0xFFE →
    decode (readWord s.mem s.pc.toNat) = some i → exec i s = .next t →
    (∀ e, t.status = .halted e → step s = .next t) ∧
    (t.status = .running → s.stalls i = true → step s = .next t) ∧
    (t.status = .running → s.stalls i = false →
      step s = .next (if t.tick + 1 = t.cfg.timerDivider then { t.tickTimers with tick := 0 }
        else { t with tick := t.tick + 1 }))

/-- R111: on a halted machine, whatever else its state holds, no operation has an effect: it takes no
step (the answer is a fault, R303), and `load` and `tick_timers()` leave the state as it is. -/
def Obligations.HaltedMachineDoesNothing : Prop :=
  ∀ (s : State) (e : FatalError), s.status = .halted e →
    step s = .fault (.haltedMachine e) ∧ (∀ src offset, s.load src offset = s) ∧
      s.tickTimersPort = s

/-- R309, and the order of R304: an odd PC is `MisalignedFetch`, also beyond 0xFFE; an even PC
beyond 0xFFE is `MemoryBounds` at PC (R112, R308). -/
def Obligations.BadFetchAddressesHalt : Prop :=
  ∀ s : State, s.status = .running →
    (s.pc.toNat % 2 = 1 → Raises (step s) s (.misalignedFetch s.pc)) ∧
    (s.pc.toNat % 2 = 0 → 0xFFE < s.pc.toNat → Raises (step s) s (.memoryBounds s.pc s.pc))

/-- Every instruction answers a next state in every state: no meaning faults or refuses; and every
step of a running machine answers a next state (R110). -/
def Obligations.RunningMachineAlwaysSteps : Prop :=
  (∀ (i : Instr) (s : State), ∃ t, exec i s = .next t) ∧
  ∀ s : State, s.status = .running → ∃ t, step s = .next t

/-- R115: if an execution or a step raises, only the status changes: no register, memory,
framebuffer, timer, PC or SP write, no `present()`, no keyboard event used up. -/
def Obligations.ErrorsArePrecise : Prop :=
  (∀ (i : Instr) (s t : State), s.status = .running → exec i s = .next t → t.status ≠ .running →
    t = { s with status := t.status }) ∧
  ∀ s t : State, step s = .next t → t.status ≠ .running → t = { s with status := t.status }

/-- Which error a step can raise, and when (R300): from a state that meets the invariant, a step
that halts records one of seven errors, each only under its own condition. `MemoryBounds` is the
fetch's, at PC, or that of an access of LD B, LD [I], LD Vx, [I] or DRW whose last byte lies above
0xFFF, at its first such byte (R53; for LD B with I = 0xFFFE, assumption 8). -/
def Obligations.EachErrorHasItsCause : Prop :=
  ∀ (s t : State) (e : FatalError), s.inv = true → step s = .next t → t.status = .halted e →
    match e with
    | .misalignedFetch pc => pc = s.pc ∧ s.pc.toNat % 2 = 1
    | .decodeError op pc =>
      pc = s.pc ∧ op = readWord s.mem s.pc.toNat ∧ decode op = none
    | .configurationError op pc =>
      pc = s.pc ∧ op = readWord s.mem s.pc.toNat ∧ s.cfg.displayAttached = false ∧
        ∃ i, decode op = some i ∧ i.usesDisplay = true
    | .stackOverflow pc sp =>
      pc = s.pc ∧ sp = s.sp ∧ s.sp.toNat = s.cfg.spMax ∧
        ∃ nnn, decode (readWord s.mem s.pc.toNat) = some (.call nnn)
    | .stackUnderflow pc sp =>
      pc = s.pc ∧ sp = s.sp ∧ s.sp.toNat = s.cfg.spEmpty ∧
        decode (readWord s.mem s.pc.toNat) = some .ret
    | .memoryBounds pc addr =>
      pc = s.pc ∧ 0xFFF < addr.toNat ∧
        ((0xFFE < s.pc.toNat ∧ s.pc.toNat % 2 = 0 ∧ addr = s.pc) ∨
          ((∃ x, decode (readWord s.mem s.pc.toNat) = some (.ldBVx x)) ∧
            0xFFF < s.i.toNat + 2 ∧
            addr = if s.i.toNat ≤ 0xFFF then 0x1000 else s.i) ∨
          ((∃ x, (decode (readWord s.mem s.pc.toNat) = some (.ldMemVx x) ∨
              decode (readWord s.mem s.pc.toNat) = some (.ldVxMem x)) ∧
            0xFFF < s.i.toNat + x.toNat) ∧
            addr = if s.i.toNat ≤ 0xFFF then 0x1000 else s.i) ∨
          ((∃ x y n, decode (readWord s.mem s.pc.toNat) = some (.drw x y n) ∧
            n.toNat ≠ 0 ∧ 0xFFF < s.i.toNat + n.toNat - 1) ∧
            addr = if s.i.toNat ≤ 0xFFF then 0x1000 else s.i))
    | .fontDigitRange pc v =>
      pc = s.pc ∧ ∃ x, v = s.getV x ∧ 0x0F < v.toNat ∧
        decode (readWord s.mem s.pc.toNat) = some (.ldFVx x)
    | .loadError _ => False

/-- R306: headless, CLS, DRW, SKP, SKNP and LD Vx, K take `ConfigurationError` with the fetched word
and PC, in any state; every other instruction has the same effect headless as with a display. -/
def Obligations.HeadlessDisplayInstructionsHalt : Prop :=
  ∀ (i : Instr) (s : State), s.cfg.displayAttached = false →
    (i.usesDisplay = true →
      Raises (exec i s) s (.configurationError (encode i) s.pc) ∧
      ∀ op, decode op = some i → op = encode i) ∧
    (i.usesDisplay = false →
      ∃ t, exec i s = .next t ∧
        exec i { s with cfg := { s.cfg with displayAttached := true } } =
          .next { t with cfg := { t.cfg with displayAttached := true } })

/-- The PC after an instruction that runs without error and does not stall (R114): past it; for a
skip, past it or past the next one too. RET, JP, CALL and JP V0 go to their target and are stated by
themselves. -/
def Obligations.NextPcIsOneOrTwoInstructionsOn : Prop :=
  ∀ (i : Instr) (s t : State), exec i s = .next t → s.status = .running → t.status = .running →
    i.isTransfer = false → s.stalls i = false →
    t.pc = s.pc + 2 ∨ (i.isSkip = true ∧ t.pc = s.pc + 4)

/-- The run loop's count after a step (R117, R118): a completed step counts one, modulo N; a
stalled step and a step that raises count nothing and tick no timer. -/
def Obligations.OnlyCompletedStepsCount : Prop :=
  ∀ (s t : State) (i : Instr), s.status = .running → s.fetch = .ok i → step s = .next t →
    (t.status = .running → s.stalls i = false →
      t.tick = if s.tick + 1 = s.cfg.timerDivider then 0 else s.tick + 1) ∧
    (s.stalls i = true ∨ t.status ≠ .running → t.tick = s.tick ∧ SameTimers s t)

/-- DT as a program sees it (R345): a step of any instruction but LD DT, Vx leaves DT or lowers it
by one, the latter only after the N-th completed step; ST likewise but for LD ST, Vx. -/
def Obligations.TimersOnlyTickDown : Prop :=
  ∀ (s t : State) (i : Instr), s.status = .running → s.fetch = .ok i → step s = .next t →
    ((∀ x, i ≠ .ldDTVx x) → t.dt = s.dt ∨
      (t.dt.toNat + 1 = s.dt.toNat ∧ s.tick + 1 = s.cfg.timerDivider)) ∧
    ((∀ x, i ≠ .ldSTVx x) → t.st = s.st ∨
      (t.st.toNat + 1 = s.st.toNat ∧ s.tick + 1 = s.cfg.timerDivider))

/-- No step changes the parameters (R20, R31, R340). -/
def Obligations.ParametersAreFixed : Prop :=
  ∀ s t : State, step s = .next t → t.cfg = s.cfg

/-- R348: from a stopped state the step completes, changes only `tick`, DT and ST, and leaves a
stopped state. -/
def Obligations.StoppedStateOnlyTicks : Prop :=
  ∀ s : State, s.stopped = true →
    ∃ t, step s = .next t ∧ t.observation = s.observation ∧ t.stopped = true

/-- The sound timer is an output (R28, R244): two states that differ in ST alone step to states
that differ in ST alone. -/
def Obligations.SoundTimerIsNeverRead : Prop :=
  ∀ (s t : State) (b : Byte), step s = .next t →
    ∃ t', step { s with st := b } = .next t' ∧ { t' with st := 0 } = { t with st := 0 }

/-! ### Control flow -/

/-- R143, R149: JP nnn and JP V0, nnn complete with PC at nnn and at nnn + V0, a sum that does not
wrap; all else is the same. -/
def Obligations.JumpsSetPc : Prop :=
  ∀ (s : State) (nnn : Addr),
    GivesPc (exec (.jp nnn) s) s (BitVec.ofNat 16 nnn.toNat) ∧
    GivesPc (exec (.jpV0 nnn) s) s (BitVec.ofNat 16 (nnn.toNat + (s.getV 0x0).toNat)) ∧
    nnn.toNat + (s.getV 0x0).toNat ≤ 0x10FE

/-- R145 to R148: the four register skips complete with PC 4 on when the condition holds and 2 on
otherwise; all else is the same. -/
def Obligations.RegisterSkips : Prop :=
  ∀ (s : State) (x y : RegIdx) (kk : Byte),
    GivesPc (exec (.seImm x kk) s) s (if s.getV x = kk then s.pc + 4 else s.pc + 2) ∧
    GivesPc (exec (.sneImm x kk) s) s (if s.getV x = kk then s.pc + 2 else s.pc + 4) ∧
    GivesPc (exec (.seReg x y) s) s (if s.getV x = s.getV y then s.pc + 4 else s.pc + 2) ∧
    GivesPc (exec (.sneReg x y) s) s (if s.getV x = s.getV y then s.pc + 2 else s.pc + 4)

/-- R140, R144: CALL with room on the stack completes: SP is 2 higher, the address after the call
stands there big-endian, PC is nnn, all else is the same; with SP at or beyond SP_MAX it takes
`StackOverflow`. The premises on memory and parameters are part of the invariant. -/
def Obligations.CallPushesTheReturnAddress : Prop :=
  ∀ (s : State) (nnn : Addr),
    (Memory.wf s.mem = true → s.cfg.wellFormed = true → s.sp.toNat + 2 ≤ s.cfg.spMax →
      ∃ t, exec (.call nnn) s = .next t ∧ t.sp.toNat = s.sp.toNat + 2 ∧
        readMem t.mem (s.sp.toNat + 2) = BitVec.ofNat 8 ((s.pc + 2).toNat / 256) ∧
        readMem t.mem (s.sp.toNat + 3) = BitVec.ofNat 8 ((s.pc + 2).toNat % 256) ∧
        t.pc = BitVec.ofNat 16 nnn.toNat ∧ SameMemOutside s t (s.sp.toNat + 2) 2 ∧
        SameV s t [] ∧ t.i = s.i ∧ SameTimers s t ∧ t.display = s.display ∧
        t.inputs = s.inputs ∧ SameBase s t) ∧
    (s.cfg.spMax < s.sp.toNat + 2 → Raises (exec (.call nnn) s) s (.stackOverflow s.pc s.sp))

/-- R141, R142: RET with an entry on the stack completes: PC is the two bytes at SP, big-endian, SP
is 2 lower, all else is the same, the popped bytes too; with SP at SP_EMPTY it takes
`StackUnderflow`. -/
def Obligations.ReturnPopsPc : Prop :=
  ∀ s : State,
    (s.sp.toNat ≠ s.cfg.spEmpty → 2 ≤ s.sp.toNat → s.sp.toNat ≤ 0xFFE →
      ∃ t, exec .ret s = .next t ∧
        t.pc.toNat = 256 * (readMem s.mem s.sp.toNat).toNat +
          (readMem s.mem (s.sp.toNat + 1)).toNat ∧
        t.sp.toNat + 2 = s.sp.toNat ∧ SameMem s t ∧ SameV s t [] ∧ t.i = s.i ∧
        SameTimers s t ∧ t.display = s.display ∧ t.inputs = s.inputs ∧ SameBase s t) ∧
    (s.sp.toNat = s.cfg.spEmpty → Raises (exec .ret s) s (.stackUnderflow s.pc s.sp))

/-- The call and return round trip (R142): after a CALL that completed, a RET from any state with
the same stack pointer, stack bytes and parameters goes to the instruction after the call and
restores SP. -/
def Obligations.ReturnComesBackFromCall : Prop :=
  ∀ (s t u : State) (nnn : Addr), s.inv = true → s.status = .running →
    exec (.call nnn) s = .next t → t.status = .running →
    u.cfg = t.cfg → u.sp = t.sp →
    readMem u.mem t.sp.toNat = readMem t.mem t.sp.toNat →
    readMem u.mem (t.sp.toNat + 1) = readMem t.mem (t.sp.toNat + 1) →
    ∃ w, exec .ret u = .next w ∧ w.pc = s.pc + 2 ∧ w.sp = s.sp ∧ SameV u w [] ∧ SameMem u w

/-- R150: a target is written as it is; if it is odd, or even and beyond 0xFFE, the instruction
still completes and the NEXT step halts with the target as its PC. -/
def Obligations.BadTargetsHaltAtTheNextFetch : Prop :=
  ∀ (i : Instr) (s t u : State), i.isTransfer = true → s.status = .running →
    s.fetch = .ok i → exec i s = .next t → t.status = .running → step s = .next u →
    u.pc = t.pc ∧
    (t.pc.toNat % 2 = 1 → Raises (step u) u (.misalignedFetch t.pc)) ∧
    (t.pc.toNat % 2 = 0 → 0xFFE < t.pc.toNat → Raises (step u) u (.memoryBounds t.pc t.pc))

/-! ### Registers and arithmetic -/

/-- R171 to R173: LD Vx, kk; ADD Vx, kk, which wraps and sets no flag; LD Vx, Vy. -/
def Obligations.LoadsAndAddConstant : Prop :=
  ∀ (s : State) (x y : RegIdx) (kk : Byte),
    GivesRegister (exec (.ldImm x kk) s) s x kk ∧
    GivesRegister (exec (.addImm x kk) s) s x
      (BitVec.ofNat 8 (((s.getV x).toNat + kk.toNat) % 256)) ∧
    GivesRegister (exec (.ldReg x y) s) s x (s.getV y)

/-- R174 to R176: OR, AND and XOR act bit by bit and leave VF alone unless x is 0xF; with x = y, OR
and AND leave the register as it is and XOR clears it. -/
def Obligations.BitwiseOperations : Prop :=
  ∀ (s : State) (x y : RegIdx), ∃ o a e : Byte,
    (∀ k, o.getLsbD k = ((s.getV x).getLsbD k || (s.getV y).getLsbD k)) ∧
    (∀ k, a.getLsbD k = ((s.getV x).getLsbD k && (s.getV y).getLsbD k)) ∧
    (∀ k, e.getLsbD k = ((s.getV x).getLsbD k ^^ (s.getV y).getLsbD k)) ∧
    GivesRegister (exec (.orReg x y) s) s x o ∧ GivesRegister (exec (.andReg x y) s) s x a ∧
    GivesRegister (exec (.xorReg x y) s) s x e ∧
    (x = y → o = s.getV x ∧ a = s.getV x ∧ e = 0x00)

/-- R177: ADD Vx, Vy writes the sum modulo 256 and the carry; with x = 0xF the sum is what VF
holds. -/
def Obligations.AddWithCarryOut : Prop :=
  ∀ (s : State) (x y : RegIdx),
    GivesRegisterAndFlag (exec (.addReg x y) s) s x
      (BitVec.ofNat 8 (((s.getV x).toNat + (s.getV y).toNat) % 256))
      (if 255 < (s.getV x).toNat + (s.getV y).toNat then 1 else 0)

/-- R178, R180: SUB and SUBN write the difference modulo 256 and "no borrow"; equal operands give
VF = 1; with x = 0xF the difference is what VF holds. -/
def Obligations.SubtractBothWays : Prop :=
  ∀ (s : State) (x y : RegIdx),
    GivesRegisterAndFlag (exec (.subReg x y) s) s x
      (BitVec.ofNat 8 (((s.getV x).toNat + 256 - (s.getV y).toNat) % 256))
      (if (s.getV y).toNat ≤ (s.getV x).toNat then 1 else 0) ∧
    GivesRegisterAndFlag (exec (.subnReg x y) s) s x
      (BitVec.ofNat 8 (((s.getV y).toNat + 256 - (s.getV x).toNat) % 256))
      (if (s.getV x).toNat ≤ (s.getV y).toNat then 1 else 0)

/-- R179, R181: SHR halves V[x] and VF is the bit dropped; SHL doubles it modulo 256 and VF is the
bit dropped; with x = 0xF the shifted value is what VF holds. The y nibble of either word is
ignored. -/
def Obligations.ShiftsByOne : Prop :=
  (∀ op, fieldO op = 0x8 →
    (fieldN op = 0x6 → decode op = some (.shr (fieldX op))) ∧
    (fieldN op = 0xE → decode op = some (.shl (fieldX op)))) ∧
  ∀ (s : State) (x : RegIdx),
    GivesRegisterAndFlag (exec (.shr x) s) s x (BitVec.ofNat 8 ((s.getV x).toNat / 2))
      (BitVec.ofNat 8 ((s.getV x).toNat % 2)) ∧
    GivesRegisterAndFlag (exec (.shl x) s) s x (BitVec.ofNat 8 (2 * (s.getV x).toNat % 256))
      (BitVec.ofNat 8 ((s.getV x).toNat / 128))

/-- R182, R183: RND writes the step's random byte ANDed with kk. In deterministic mode the byte is
0xFF, so V[x] is kk and no input is used up; otherwise it is the next byte of the inputs, whichever
that is, and that byte is used up (where the byte comes from is assumption 2). -/
def Obligations.RandomAnd : Prop :=
  ∀ (s : State) (x : RegIdx) (kk : Byte), ∃ t, exec (.rnd x kk) s = .next t ∧
    t.pc = s.pc + 2 ∧
    (s.cfg.deterministic = true → t.getV x = kk ∧ t.inputs = s.inputs) ∧
    (s.cfg.deterministic = false → t.getV x = s.inputs.nextByte &&& kk ∧
      t.inputs = s.inputs.takeByte) ∧
    (kk = 0x00 → t.getV x = 0x00) ∧
    SameV s t [x] ∧ SameMem s t ∧ t.i = s.i ∧ t.sp = s.sp ∧ SameTimers s t ∧
    t.display = s.display ∧ SameBase s t

/-! ### The address register and memory -/

/-- R210 to R212: LD I, nnn; ADD I, Vx, which wraps at 16 bits and sets no flag; LD F, Vx, which
takes `FontDigitRange` above 0xF. All but I and PC is the same. -/
def Obligations.SettingTheAddressRegister : Prop :=
  ∀ (s : State) (nnn : Addr) (x : RegIdx),
    (∃ t, exec (.ldI nnn) s = .next t ∧ t.i.toNat = nnn.toNat ∧ t.pc = s.pc + 2 ∧
      SameBut s { t with i := s.i } []) ∧
    (∃ t, exec (.addIVx x) s = .next t ∧ t.i.toNat = (s.i.toNat + (s.getV x).toNat) % 65536 ∧
      t.pc = s.pc + 2 ∧ SameBut s { t with i := s.i } []) ∧
    ((s.getV x).toNat ≤ 0xF → ∃ t, exec (.ldFVx x) s = .next t ∧
      t.i.toNat = (s.cfg.fontBase + 5 * (s.getV x).toNat) % 65536 ∧ t.pc = s.pc + 2 ∧
      SameBut s { t with i := s.i } []) ∧
    (0xF < (s.getV x).toNat →
      Raises (exec (.ldFVx x) s) s (.fontDigitRange s.pc (s.getV x)))

/-- LD B, Vx (R213): in range it completes, with the hundreds, tens and units at I, I+1 and I+2, and
all else but PC the same, I too; out of range it takes `MemoryBounds` at the first address of
the access above 0xFFF (R53; for I = 0xFFFE, assumption 8), and writes nothing. The premise on memory
is part of the invariant. -/
def Obligations.BcdStoresThreeDigits : Prop :=
  ∀ (s : State) (x : RegIdx), Memory.wf s.mem = true →
    (s.i.toNat + 2 ≤ 0xFFF → ∃ t, exec (.ldBVx x) s = .next t ∧
      (readMem t.mem s.i.toNat).toNat = (s.getV x).toNat / 100 ∧
      (readMem t.mem (s.i.toNat + 1)).toNat = (s.getV x).toNat / 10 % 10 ∧
      (readMem t.mem (s.i.toNat + 2)).toNat = (s.getV x).toNat % 10 ∧
      SameMemOutside s t s.i.toNat 3 ∧ t.pc = s.pc + 2 ∧ SameBut s { t with mem := s.mem } []) ∧
    (0xFFF < s.i.toNat + 2 →
      Raises (exec (.ldBVx x) s) s
        (.memoryBounds s.pc (if s.i.toNat ≤ 0xFFF then 0x1000 else s.i)))

/-- R214: LD [I], Vx in range completes, with V0 to Vx at the bytes from I and all else but PC the
same, I too; out of range it takes `MemoryBounds` at the first address above 0xFFF and writes
nothing. The premise on memory is part of the invariant. -/
def Obligations.BlockStoreRegisters : Prop :=
  ∀ (s : State) (x : RegIdx), Memory.wf s.mem = true →
    (s.i.toNat + x.toNat ≤ 0xFFF → ∃ t, exec (.ldMemVx x) s = .next t ∧
      (∀ r : RegIdx, r.toNat ≤ x.toNat → readMem t.mem (s.i.toNat + r.toNat) = s.getV r) ∧
      SameMemOutside s t s.i.toNat (x.toNat + 1) ∧ t.pc = s.pc + 2 ∧
      SameBut s { t with mem := s.mem } []) ∧
    (0xFFF < s.i.toNat + x.toNat →
      Raises (exec (.ldMemVx x) s) s
        (.memoryBounds s.pc (if s.i.toNat ≤ 0xFFF then 0x1000 else s.i)))

/-- R215: LD Vx, [I] in range completes, with V0 to Vx from the bytes at I, the registers above x and
all else but PC the same, I too; out of range it takes `MemoryBounds` at the first address above
0xFFF and writes no register. -/
def Obligations.BlockLoadRegisters : Prop :=
  ∀ (s : State) (x : RegIdx),
    (s.i.toNat + x.toNat ≤ 0xFFF → ∃ t, exec (.ldVxMem x) s = .next t ∧
      (∀ r : RegIdx, r.toNat ≤ x.toNat → t.getV r = readMem s.mem (s.i.toNat + r.toNat)) ∧
      (∀ r : RegIdx, x.toNat < r.toNat → t.getV r = s.getV r) ∧ t.pc = s.pc + 2 ∧
      SameBut s { t with v := s.v } []) ∧
    (0xFFF < s.i.toNat + x.toNat →
      Raises (exec (.ldVxMem x) s) s
        (.memoryBounds s.pc (if s.i.toNat ≤ 0xFFF then 0x1000 else s.i)))

/-- The block store and load round trip (R214, R215): loading registers 0..X, from any state with
the same I and memory, gives back the register values that were stored, for every X. -/
def Obligations.BlockRoundTrip : Prop :=
  ∀ (s t u : State) (x : RegIdx), Memory.wf s.mem = true → s.status = .running →
    exec (.ldMemVx x) s = .next t → t.status = .running → u.mem = t.mem → u.i = t.i →
    ∃ w, exec (.ldVxMem x) u = .next w ∧
      (∀ r : RegIdx, r.toNat ≤ x.toNat → w.getV r = s.getV r) ∧
      (∀ r : RegIdx, x.toNat < r.toNat → w.getV r = u.getV r)

/-- A word is its two bytes, the one at the lower address more significant, for every memory
(R51, R52); and a word written is the word read. -/
def Obligations.MemoryIsBigEndian : Prop :=
  (∀ (m : Memory) (a : Nat),
    (readWord m a).toNat = 256 * (readMem m a).toNat + (readMem m (a + 1)).toNat) ∧
  ∀ (m : Memory) (a : Nat) (w : Word), Memory.wf m = true → a + 2 ≤ 4096 →
    readWord (writeWord m a w) a = w

/-- Self-modifying code (R61): after a block store that covers the two bytes at an even address,
the fetch at that address reads the two registers stored there. -/
def Obligations.StoredCodeIsFetched : Prop :=
  ∀ (s t : State) (x r : RegIdx) (a : Word), Memory.wf s.mem = true → s.status = .running →
    exec (.ldMemVx x) s = .next t → t.status = .running →
    r.toNat + 1 ≤ x.toNat → a.toNat = s.i.toNat + r.toNat → a.toNat % 2 = 0 →
    { t with pc := a }.fetch =
      match decode (s.getV r ++ s.getV (r + 1)) with
      | some i => .ok i
      | none => .error (.decodeError (s.getV r ++ s.getV (r + 1)) a)

/-! ### Timers -/

/-- R241 to R243: LD Vx, DT is `V[x] <- DT`, LD DT, Vx is `DT <- V[x]`, LD ST, Vx is `ST <- V[x]`. All
else but PC is the same. -/
def Obligations.TimerTransfers : Prop :=
  ∀ (s : State) (x : RegIdx),
    GivesRegister (exec (.ldVxDT x) s) s x s.dt ∧
    (∃ t, exec (.ldDTVx x) s = .next t ∧ t.dt = s.getV x ∧ t.st = s.st ∧ t.pc = s.pc + 2 ∧
      SameBut s { t with dt := s.dt } []) ∧
    (∃ t, exec (.ldSTVx x) s = .next t ∧ t.st = s.getV x ∧ t.dt = s.dt ∧ t.pc = s.pc + 2 ∧
      SameBut s { t with st := s.st } [])

/-- `tick_timers()` of R240 on a running machine: each timer down by one with a floor at zero, and
nothing else. -/
def Obligations.TimersCountDownToZero : Prop :=
  ∀ s : State, s.status = .running →
    s.tickTimersPort.dt.toNat = s.dt.toNat - 1 ∧ s.tickTimersPort.st.toNat = s.st.toNat - 1 ∧
    { s.tickTimersPort with dt := s.dt, st := s.st } = s

/-! ### The display -/

/-- R262: CLS with the display attached completes: every pixel is off, the calls made are
`clear(0)` and one `present()`, all else but PC is the same, VF too; headless it takes
`ConfigurationError`. -/
def Obligations.ClearScreen : Prop :=
  ∀ s : State,
    (s.cfg.displayAttached = true → ∃ t, exec .cls s = .next t ∧
      (∀ px py, t.display.getPixel px py = false) ∧
      t.display.calls = s.display.calls ++ [.clear false, .present] ∧ t.pc = s.pc + 2 ∧
      SameBut s { t with display := s.display } []) ∧
    (s.cfg.displayAttached = false → Raises (exec .cls s) s (.configurationError 0x00E0 s.pc))

/-- R263: DRW in range with the display attached completes: each pixel is XORed with the sprite bit
that wraps onto it, VF is 1 if some set pixel was turned off and 0 if none was, the calls are exactly
one draw for each pixel under a set sprite bit, then one `present()`, and all else but PC is the same, I
too. A sprite byte beyond 0xFFF takes `MemoryBounds` at the first such address; headless it takes
`ConfigurationError`. -/
def Obligations.DrawXorsTheSprite : Prop :=
  ∀ (s : State) (x y : RegIdx) (n : Nibble),
    (s.cfg.displayAttached = true → (n.toNat = 0 ∨ s.i.toNat + n.toNat - 1 ≤ 0xFFF) →
      ∃ t, exec (.drw x y n) s = .next t ∧
        (∀ px py, t.display.getPixel px py = (s.display.getPixel px py ^^
          spriteBit (readBytes s.mem s.i.toNat n.toNat) (s.getV x).toNat (s.getV y).toNat px py)) ∧
        (t.getV Config.flagReg = 1 ∨ t.getV Config.flagReg = 0) ∧
        (t.getV Config.flagReg = 1 ↔ ∃ px py, s.display.getPixel px py = true ∧
          spriteBit (readBytes s.mem s.i.toNat n.toNat) (s.getV x).toNat (s.getV y).toNat px py =
            true) ∧
        (∃ draws, t.display.calls = s.display.calls ++ draws ++ [.present] ∧ draws.Nodup ∧
          ∀ c, c ∈ draws ↔ ∃ px py,
            spriteBit (readBytes s.mem s.i.toNat n.toNat) (s.getV x).toNat (s.getV y).toNat px py =
              true ∧ c = DisplayCall.drawPixel px py (!s.display.getPixel px py)) ∧
        t.pc = s.pc + 2 ∧ SameBut s { t with display := s.display } [Config.flagReg]) ∧
    (s.cfg.displayAttached = true → n.toNat ≠ 0 → 0xFFF < s.i.toNat + n.toNat - 1 →
      Raises (exec (.drw x y n) s) s
        (.memoryBounds s.pc (if s.i.toNat ≤ 0xFFF then 0x1000 else s.i))) ∧
    (s.cfg.displayAttached = false →
      Raises (exec (.drw x y n) s) s (.configurationError (encode (.drw x y n)) s.pc))

/-- DRW with n = 0 (a corner case of R263): it reads and draws nothing, sets VF to 0 and presents
once, wherever I points. -/
def Obligations.EmptySpriteClearsTheFlag : Prop :=
  ∀ (s : State) (x y : RegIdx), s.cfg.displayAttached = true →
    ∃ t, exec (.drw x y 0x0) s = .next t ∧ t.display.fb = s.display.fb ∧
      t.display.calls = s.display.calls ++ [.present] ∧ t.getV Config.flagReg = 0 ∧
      t.pc = s.pc + 2 ∧ SameBut s { t with display := s.display } [Config.flagReg]

/-- Sprite XOR idempotence (R263): the same sprite drawn twice at the same place leaves every pixel
as it was; the second VF is 1 exactly when the first draw set some pixel. -/
def Obligations.DrawTwiceRestoresThePicture : Prop :=
  ∀ (s t u w : State) (x y : RegIdx) (n : Nibble), s.status = .running →
    exec (.drw x y n) s = .next t → t.status = .running →
    u.display = t.display → u.mem = s.mem → u.i = s.i → u.cfg = s.cfg → u.status = .running →
    u.getV x = s.getV x → u.getV y = s.getV y →
    exec (.drw x y n) u = .next w →
    w.display.fb = s.display.fb ∧
    (w.getV Config.flagReg = 1 ↔
      ∃ px py, s.display.getPixel px py = false ∧ t.display.getPixel px py = true)

/-- `present()` is issued exactly once by each CLS and DRW that completes and by nothing else, as the
last call; and no other instruction touches the display at all (R261, R346). -/
def Obligations.PresentsComeFromClsAndDrw : Prop :=
  ∀ (i : Instr) (s t : State), s.status = .running → exec i s = .next t →
    (t.status = .running → (i = .cls ∨ ∃ x y n, i = .drw x y n) →
      ∃ calls, t.display.calls = s.display.calls ++ calls ++ [.present] ∧
        DisplayCall.present ∉ calls) ∧
    (i ≠ .cls → (∀ x y n, i ≠ .drw x y n) → t.display = s.display)

/-! ### The keyboard -/

/-- R285, R286: with the keyboard attached SKP and SKNP make one poll and complete: SKP skips when
the answer is a key equal to the whole 8-bit V[x], SKNP when it is not; all else is the same.
Headless they take `ConfigurationError` and make no poll. (The answer is the step's input, assumption
3.) -/
def Obligations.KeySkips : Prop :=
  ∀ (s : State) (x : RegIdx),
    (s.cfg.displayAttached = true → ∃ t u,
      exec (.skp x) s = .next t ∧ exec (.sknp x) s = .next u ∧
      ((∃ k, s.kbd = some k ∧ k.toNat = (s.getV x).toNat) → t.pc = s.pc + 4 ∧ u.pc = s.pc + 2) ∧
      ((∀ k, s.kbd = some k → k.toNat ≠ (s.getV x).toNat) → t.pc = s.pc + 2 ∧ u.pc = s.pc + 4) ∧
      t.inputs = s.inputs.takeKey ∧ u.inputs = s.inputs.takeKey ∧
      SameBut s { t with inputs := s.inputs } [] ∧ SameBut s { u with inputs := s.inputs } []) ∧
    (s.cfg.displayAttached = false →
      Raises (exec (.skp x) s) s (.configurationError (encode (.skp x)) s.pc) ∧
      Raises (exec (.sknp x) s) s (.configurationError (encode (.sknp x)) s.pc))

/-- R287, R116: with the keyboard attached and a key answered, LD Vx, K completes with the key in V[x];
with no key it stalls: nothing changes but that the answer "no key" is used up, and the run loop's
whole step changes nothing else either. Headless it takes `ConfigurationError`, never stalls. -/
def Obligations.KeyWait : Prop :=
  ∀ (s : State) (x : RegIdx),
    (s.cfg.displayAttached = true → ∀ k, s.kbd = some k →
      ∃ t, exec (.ldVxK x) s = .next t ∧ (t.getV x).toNat = k.toNat ∧ t.pc = s.pc + 2 ∧
        t.inputs = s.inputs.takeKey ∧ SameBut s { t with inputs := s.inputs } [x]) ∧
    (s.cfg.displayAttached = true → s.kbd = none →
      exec (.ldVxK x) s = .next { s with inputs := s.inputs.takeKey } ∧
      (s.status = .running → s.fetch = .ok (.ldVxK x) →
        step s = .next { s with inputs := s.inputs.takeKey })) ∧
    (s.cfg.displayAttached = false →
      Raises (exec (.ldVxK x) s) s (.configurationError (encode (.ldVxK x)) s.pc))

/-! ### Who writes what -/

/-- The writers of I are LD I, nnn; ADD I, Vx; LD F, Vx (R25): no other instruction changes I. -/
def Obligations.OnlyThreeInstructionsWriteI : Prop :=
  ∀ (i : Instr) (s t : State), exec i s = .next t → t.i ≠ s.i →
    (∃ nnn, i = .ldI nnn) ∨ (∃ x, i = .addIVx x) ∨ ∃ x, i = .ldFVx x

/-- SP is changed only by CALL and RET (R27). -/
def Obligations.OnlyCallAndReturnMoveSp : Prop :=
  ∀ (i : Instr) (s t : State), exec i s = .next t → t.sp ≠ s.sp →
    i = .ret ∨ ∃ nnn, i = .call nnn

/-- A V register changes only as the named destination of the instruction, or, for VF, by one of the
six instructions that write a flag (R23). -/
def Obligations.RegistersChangeOnlyAsNamed : Prop :=
  ∀ (i : Instr) (s t : State) (r : RegIdx), exec i s = .next t → t.getV r ≠ s.getV r →
    i.destinations r = true ∨ (r = Config.flagReg ∧ i.writesFlag = true)

/-- Memory changes only by CALL, at the two bytes of the pushed entry, by LD B, Vx, at the three
bytes from I, and by LD [I], Vx, at the x + 1 bytes from I (R50). -/
def Obligations.MemoryChangesOnlyWhereStored : Prop :=
  ∀ (i : Instr) (s t : State) (a : Nat), exec i s = .next t →
    readMem t.mem a ≠ readMem s.mem a →
    ((∃ nnn, i = .call nnn) ∧ s.sp.toNat + 2 ≤ a ∧ a ≤ s.sp.toNat + 3) ∨
    ((∃ x, i = .ldBVx x) ∧ s.i.toNat ≤ a ∧ a ≤ s.i.toNat + 2) ∨
    ∃ x, i = .ldMemVx x ∧ s.i.toNat ≤ a ∧ a ≤ s.i.toNat + x.toNat
end

