-- ==== Sys2Proof/Laws/Decode.lean ====
section
/-!
SUPPORT. The fields of an encoded word, and the masks of R90 as conditions on fields.
-/

namespace Sys2Proof

/-- A field of the upper part of a concatenation. -/
theorem extract_append_high {m n : Nat} (a : BitVec m) (b : BitVec n) (i k : Nat) (h : n ≤ i) :
    (a ++ b).extractLsb' i k = a.extractLsb' (i - n) k := by
  apply BitVec.eq_of_getLsbD_eq
  intro j hj
  have : ¬ i + j < n := by omega
  have e : i + j - n = i - n + j := by omega
  simp [BitVec.getLsbD_append, hj, this, e]

/-- A field of the lower part of a concatenation. -/
theorem extract_append_low {m n : Nat} (a : BitVec m) (b : BitVec n) (i k : Nat) (h : i + k ≤ n) :
    (a ++ b).extractLsb' i k = b.extractLsb' i k := by
  apply BitVec.eq_of_getLsbD_eq
  intro j hj
  have : i + j < n := by omega
  simp [BitVec.getLsbD_append, hj, this]

/-- The whole of a vector is its own field. -/
theorem extract_whole {n : Nat} (a : BitVec n) : a.extractLsb' 0 n = a := by
  apply BitVec.eq_of_getLsbD_eq
  intro j hj
  simp [hj]

@[simp] theorem fieldO_wordNNN (o : Nibble) (a : Addr) : fieldO (wordNNN o a) = o := by
  unfold fieldO wordNNN
  rw [extract_append_high _ _ _ _ (by omega)]; exact extract_whole o

@[simp] theorem fieldNNN_wordNNN (o : Nibble) (a : Addr) : fieldNNN (wordNNN o a) = a := by
  unfold fieldNNN wordNNN
  rw [extract_append_low _ _ _ _ (by omega)]; exact extract_whole a

@[simp] theorem fieldO_wordXKK (o : Nibble) (x : RegIdx) (kk : Byte) :
    fieldO (wordXKK o x kk) = o := by
  unfold fieldO wordXKK
  rw [extract_append_high _ _ _ _ (by omega), extract_append_high _ _ _ _ (by omega)]
  exact extract_whole o

@[simp] theorem fieldX_wordXKK (o : Nibble) (x : RegIdx) (kk : Byte) :
    fieldX (wordXKK o x kk) = x := by
  unfold fieldX wordXKK
  rw [extract_append_high _ _ _ _ (by omega), extract_append_low _ _ _ _ (by omega)]
  exact extract_whole x

@[simp] theorem fieldKK_wordXKK (o : Nibble) (x : RegIdx) (kk : Byte) :
    fieldKK (wordXKK o x kk) = kk := by
  unfold fieldKK wordXKK
  rw [extract_append_low _ _ _ _ (by omega)]; exact extract_whole kk

@[simp] theorem fieldO_wordXYN (o : Nibble) (x y : RegIdx) (n : Nibble) :
    fieldO (wordXYN o x y n) = o := by
  unfold fieldO wordXYN
  rw [extract_append_high _ _ _ _ (by omega), extract_append_high _ _ _ _ (by omega),
    extract_append_high _ _ _ _ (by omega)]
  exact extract_whole o

@[simp] theorem fieldX_wordXYN (o : Nibble) (x y : RegIdx) (n : Nibble) :
    fieldX (wordXYN o x y n) = x := by
  unfold fieldX wordXYN
  rw [extract_append_high _ _ _ _ (by omega), extract_append_high _ _ _ _ (by omega),
    extract_append_low _ _ _ _ (by omega)]
  exact extract_whole x

@[simp] theorem fieldY_wordXYN (o : Nibble) (x y : RegIdx) (n : Nibble) :
    fieldY (wordXYN o x y n) = y := by
  unfold fieldY wordXYN
  rw [extract_append_high _ _ _ _ (by omega), extract_append_low _ _ _ _ (by omega)]
  exact extract_whole y

@[simp] theorem fieldN_wordXYN (o : Nibble) (x y : RegIdx) (n : Nibble) :
    fieldN (wordXYN o x y n) = n := by
  unfold fieldN wordXYN
  rw [extract_append_low _ _ _ _ (by omega)]; exact extract_whole n

/-! ### The masks -/

/-- A word is its leftmost nibble and its 12-bit address field. -/
theorem word_eq_NNN (op : Word) : op = wordNNN (fieldO op) (fieldNNN op) := by
  unfold wordNNN fieldO fieldNNN
  apply BitVec.eq_of_getLsbD_eq
  intro i hi
  simp only [BitVec.getLsbD_append, BitVec.getLsbD_extractLsb']
  by_cases h : i < 12
  · simp [h]
  · have e : 12 + (i - 12) = i := by omega
    have l : i - 12 < 4 := by omega
    simp [h, l, e]

/-- A word is its leftmost nibble, its x nibble and its low byte. -/
theorem word_eq_XKK (op : Word) : op = wordXKK (fieldO op) (fieldX op) (fieldKK op) := by
  unfold wordXKK fieldO fieldX fieldKK
  apply BitVec.eq_of_getLsbD_eq
  intro i hi
  simp only [BitVec.getLsbD_append, BitVec.getLsbD_extractLsb']
  by_cases h : i < 8
  · simp [h]
  · by_cases h' : i < 12
    · have e : 8 + (i - 8) = i := by omega
      have l : i - 8 < 4 := by omega
      simp [h, l, e]
    · have e : 12 + (i - 8 - 4) = i := by omega
      have l : ¬ i - 8 < 4 := by omega
      have l' : i - 8 - 4 < 4 := by omega
      simp [h, l, l', e]

/-- A word is its four nibbles (R81). -/
theorem word_eq_XYN (op : Word) :
    op = wordXYN (fieldO op) (fieldX op) (fieldY op) (fieldN op) := by
  unfold wordXYN fieldO fieldX fieldY fieldN
  apply BitVec.eq_of_getLsbD_eq
  intro i hi
  simp only [BitVec.getLsbD_append, BitVec.getLsbD_extractLsb']
  by_cases h : i < 4
  · simp [h]
  · by_cases h' : i < 8
    · have e : 4 + (i - 4) = i := by omega
      have l : i - 4 < 4 := by omega
      simp [h, l, e]
    · by_cases h'' : i < 12
      · have e : 8 + (i - 4 - 4) = i := by omega
        have l : ¬ i - 4 < 4 := by omega
        have l' : i - 4 - 4 < 4 := by omega
        simp [h, l, l', e]
      · have e : 12 + (i - 4 - 4 - 4) = i := by omega
        have l : ¬ i - 4 < 4 := by omega
        have l' : ¬ i - 4 - 4 < 4 := by omega
        have l'' : i - 4 - 4 - 4 < 4 := by omega
        simp [h, l, l', l'', e]

theorem wordNNN_and (o o' : Nibble) (a a' : Addr) :
    wordNNN o a &&& wordNNN o' a' = wordNNN (o &&& o') (a &&& a') := by
  exact BitVec.and_append

theorem wordXKK_and (o o' : Nibble) (x x' : RegIdx) (k k' : Byte) :
    wordXKK o x k &&& wordXKK o' x' k' = wordXKK (o &&& o') (x &&& x') (k &&& k') := by
  unfold wordXKK
  exact BitVec.and_append.trans (congrArg (· ++ (k &&& k')) BitVec.and_append)

theorem wordXYN_and (o o' : Nibble) (x x' y y' : RegIdx) (n n' : Nibble) :
    wordXYN o x y n &&& wordXYN o' x' y' n' =
      wordXYN (o &&& o') (x &&& x') (y &&& y') (n &&& n') := by
  unfold wordXYN
  exact BitVec.and_append.trans (congrArg (· ++ (n &&& n'))
    (BitVec.and_append.trans (congrArg (· ++ (y &&& y')) BitVec.and_append)))

/-- All ones leave a vector as it is. -/
theorem and_ones {n : Nat} (a : BitVec n) : a &&& BitVec.allOnes n = a := by simp

/-- Mask 0xF000 keeps the leftmost nibble. -/
theorem and_F000 (op : Word) : op &&& 0xF000 = wordNNN (fieldO op) 0 := by
  have e : (0xF000 : Word) = wordNNN (BitVec.allOnes 4) 0 := by decide
  rw [e]
  conv => lhs; rw [word_eq_NNN op]
  rw [wordNNN_and, and_ones]; simp

/-- Mask 0xF0FF keeps the leftmost nibble and the low byte. -/
theorem and_F0FF (op : Word) : op &&& 0xF0FF = wordXKK (fieldO op) 0 (fieldKK op) := by
  have e : (0xF0FF : Word) = wordXKK (BitVec.allOnes 4) 0 (BitVec.allOnes 8) := by decide
  rw [e]
  conv => lhs; rw [word_eq_XKK op]
  rw [wordXKK_and, and_ones, and_ones]; simp

/-- Mask 0xF00F keeps the leftmost and the rightmost nibble. -/
theorem and_F00F (op : Word) : op &&& 0xF00F = wordXYN (fieldO op) 0 0 (fieldN op) := by
  have e : (0xF00F : Word) = wordXYN (BitVec.allOnes 4) 0 0 (BitVec.allOnes 4) := by decide
  rw [e]
  conv => lhs; rw [word_eq_XYN op]
  rw [wordXYN_and, and_ones, and_ones]; simp

/-- Mask 0xF000 selects by the leftmost nibble alone. -/
theorem and_F000_eq (op : Word) (o : Nibble) :
    op &&& 0xF000 = wordNNN o 0 ↔ fieldO op = o := by
  rw [and_F000]
  exact ⟨fun h => by simpa using congrArg fieldO h, fun h => by rw [h]⟩

/-- Mask 0xF0FF selects by the leftmost nibble and the low byte. -/
theorem and_F0FF_eq (op : Word) (o : Nibble) (kk : Byte) :
    op &&& 0xF0FF = wordXKK o 0 kk ↔ fieldO op = o ∧ fieldKK op = kk := by
  rw [and_F0FF]
  exact ⟨fun h => ⟨by simpa using congrArg fieldO h, by simpa using congrArg fieldKK h⟩,
    fun h => by rw [h.1, h.2]⟩

/-- Mask 0xF00F selects by the leftmost and the rightmost nibble. -/
theorem and_F00F_eq (op : Word) (o n : Nibble) :
    op &&& 0xF00F = wordXYN o 0 0 n ↔ fieldO op = o ∧ fieldN op = n := by
  rw [and_F00F]
  exact ⟨fun h => ⟨by simpa using congrArg fieldO h, by simpa using congrArg fieldN h⟩,
    fun h => by rw [h.1, h.2]⟩

end Sys2Proof
end

