-- ==== Sys2Proof/Laws/Memory.lean ====
section
/-!
SUPPORT. The laws of memory: a read after a write, the canonical form through every memory
operation, and that canonical memories with equal reads are equal.
-/

namespace Sys2Proof.Machine

@[simp] theorem readMem_nil (a : Nat) : readMem [] a = Memory.unlisted := rfl

/-- Every entry of a canonical memory stands at or above its bound, so a read below gives the
unlisted byte. -/
theorem readMem_below {m : Memory} {lo a : Nat} (h : Memory.wfFrom lo m = true) (ha : a < lo) :
    readMem m a = Memory.unlisted := by
  induction m generalizing lo with
  | nil => rfl
  | cons c rest ih =>
    obtain ⟨k, b⟩ := c
    simp only [Memory.wfFrom, Bool.and_eq_true, decide_eq_true_eq] at h
    have hk : k ≠ a := by omega
    simp only [readMem, hk, if_false]
    exact ih h.2 (by omega)

/-- The canonical form may be read with a lower bound. -/
theorem wfFrom_mono {m : Memory} {lo lo' : Nat} (h : Memory.wfFrom lo m = true) (hl : lo' ≤ lo) :
    Memory.wfFrom lo' m = true := by
  cases m with
  | nil => rfl
  | cons c rest =>
    obtain ⟨k, b⟩ := c
    simp only [Memory.wfFrom, Bool.and_eq_true, decide_eq_true_eq] at h ⊢
    exact ⟨⟨⟨by omega, h.1.1.2⟩, h.1.2⟩, h.2⟩

/-- A write keeps the canonical form. -/
theorem writeMem_wfFrom {m : Memory} {lo a : Nat} {b : Byte} (h : Memory.wfFrom lo m = true)
    (hlo : lo ≤ a) (ha : a < Config.memSize) : Memory.wfFrom lo (writeMem a b m) = true := by
  induction m generalizing lo with
  | nil =>
    simp only [writeMem]
    split
    · rfl
    · simp [Memory.wfFrom, *]
  | cons c rest ih =>
    obtain ⟨k, d⟩ := c
    simp only [Memory.wfFrom, Bool.and_eq_true, decide_eq_true_eq] at h
    obtain ⟨⟨⟨hk, hks⟩, hd⟩, hr⟩ := h
    simp only [writeMem]
    split
    · split
      · simp [Memory.wfFrom, hk, hks, hr, hd]
      · next h1 h2 => simp [Memory.wfFrom, hlo, ha, h2, hks, hr, hd]; omega
    · split
      · next h1 h2 =>
        subst h2
        split
        · exact wfFrom_mono hr (by omega)
        · next h3 => simp [Memory.wfFrom, hlo, ha, h3, hr]
      · simp [Memory.wfFrom, hk, hks, hd, ih hr (by omega)]

theorem writeMem_wf {m : Memory} {a : Nat} {b : Byte} (h : Memory.wf m = true)
    (ha : a < Config.memSize) : Memory.wf (writeMem a b m) = true :=
  writeMem_wfFrom h (Nat.zero_le a) ha

/-- Writing consecutive bytes in range keeps the canonical form. -/
theorem writeBytes_wf {m : Memory} {a : Nat} {bs : List Byte} (h : Memory.wf m = true)
    (ha : a + bs.length ≤ Config.memSize) : Memory.wf (writeBytes m a bs) = true := by
  induction bs generalizing m a with
  | nil => exact h
  | cons b rest ih =>
    simp only [List.length_cons] at ha
    exact ih (writeMem_wf h (by omega)) (by omega)

theorem writeWord_wf {m : Memory} {a : Nat} {w : Word} (h : Memory.wf m = true)
    (ha : a + 2 ≤ Config.memSize) : Memory.wf (writeWord m a w) = true :=
  writeBytes_wf h ha

/-- A read of another address does not see a write, in any memory. -/
theorem readMem_writeMem_of_ne {m : Memory} {a c : Nat} (b : Byte) (h : c ≠ a) :
    readMem (writeMem a b m) c = readMem m c := by
  have h' : a ≠ c := fun e => h e.symm
  induction m with
  | nil => simp only [writeMem]; split <;> simp [readMem, h']
  | cons e rest ih =>
    obtain ⟨k, d⟩ := e
    simp only [writeMem]
    split
    · split <;> simp [readMem, h']
    · split
      · next h1 h2 => subst h2; split <;> simp [readMem, h']
      · simp only [readMem, ih]

/-- A read of the written address gives the byte, in a canonical memory. -/
theorem readMem_writeMem_same {m : Memory} {lo a : Nat} (b : Byte)
    (h : Memory.wfFrom lo m = true) : readMem (writeMem a b m) a = b := by
  induction m generalizing lo with
  | nil =>
    simp only [writeMem]
    split
    · next hb => simp [readMem, hb]
    · simp [readMem]
  | cons e rest ih =>
    obtain ⟨k, d⟩ := e
    simp only [Memory.wfFrom, Bool.and_eq_true, decide_eq_true_eq] at h
    simp only [writeMem]
    split
    · next hk =>
      split
      · next hb =>
        have : k ≠ a := by omega
        simp only [readMem, this, if_false, hb]
        exact readMem_below h.2 (by omega)
      · simp [readMem]
    · split
      · next h1 h2 =>
        subst h2
        split
        · next hb => rw [hb]; exact readMem_below h.2 (by omega)
        · simp [readMem]
      · next h1 h2 =>
        have : k ≠ a := fun e => h2 e.symm
        simp only [readMem, this, if_false]
        exact ih h.2

/-- What a read sees of a write of consecutive bytes. -/
theorem readMem_writeBytes {m : Memory} {a c : Nat} {bs : List Byte} (h : Memory.wf m = true)
    (ha : a + bs.length ≤ Config.memSize) :
    readMem (writeBytes m a bs) c =
      if a ≤ c ∧ c < a + bs.length then bs.getD (c - a) 0 else readMem m c := by
  induction bs generalizing m a with
  | nil => simp [writeBytes]
  | cons b rest ih =>
    simp only [List.length_cons] at ha
    rw [writeBytes, ih (writeMem_wf h (by omega)) (by omega)]
    by_cases hc : c = a
    · subst hc
      simp [readMem_writeMem_same b h]
    · rw [readMem_writeMem_of_ne b hc]
      by_cases hin : a + 1 ≤ c ∧ c < a + 1 + rest.length
      · have h2 : a ≤ c ∧ c < a + (rest.length + 1) := by omega
        have h3 : c - a = (c - (a + 1)) + 1 := by omega
        simp [hin, h2, h3]
      · have h2 : ¬ (a ≤ c ∧ c < a + (rest.length + 1)) := by omega
        rw [if_neg hin, List.length_cons, if_neg h2]

/-- Outside the written bytes every read is as before, in any memory. -/
theorem readMem_writeBytes_outside {m : Memory} {a c : Nat} {bs : List Byte}
    (h : c < a ∨ a + bs.length ≤ c) : readMem (writeBytes m a bs) c = readMem m c := by
  induction bs generalizing m a with
  | nil => rfl
  | cons b rest ih =>
    simp only [List.length_cons] at h
    rw [writeBytes, ih (by omega), readMem_writeMem_of_ne b (by omega)]

@[simp] theorem length_bytesOfWord (w : Word) : (bytesOfWord w).length = 2 := rfl

theorem wordOfBytes_bytesOfWord (w : Word) :
    wordOfBytes (w.extractLsb' 8 8) (w.extractLsb' 0 8) = w := by
  unfold wordOfBytes
  apply BitVec.eq_of_getLsbD_eq
  intro i hi
  simp only [BitVec.getLsbD_append, BitVec.getLsbD_extractLsb']
  by_cases h : i < 8
  · simp [h]
  · have e : 8 + (i - 8) = i := by omega
    have l : i - 8 < 8 := by omega
    simp [h, l, e]

/-- A 2-byte read after a 2-byte write gives the word written (R51, R52). -/
theorem readWord_writeWord {m : Memory} {a : Nat} {w : Word} (h : Memory.wf m = true)
    (ha : a + 2 ≤ Config.memSize) : readWord (writeWord m a w) a = w := by
  have e1 := readMem_writeBytes (c := a) (bs := bytesOfWord w) h ha
  have e2 := readMem_writeBytes (c := a + 1) (bs := bytesOfWord w) h ha
  simp only [bytesOfWord, List.length_cons, List.length_nil] at e1 e2
  simp only [readWord, writeWord, bytesOfWord, e1, e2]
  simp [wordOfBytes_bytesOfWord]

/-- Canonical memories that read alike everywhere are the same data. -/
theorem wf_ext {m m' : Memory} {lo lo' : Nat} (h : Memory.wfFrom lo m = true)
    (h' : Memory.wfFrom lo' m' = true) (e : ∀ a, readMem m a = readMem m' a) : m = m' := by
  induction m generalizing lo lo' m' with
  | nil =>
    cases m' with
    | nil => rfl
    | cons c rest =>
      obtain ⟨k, b⟩ := c
      simp only [Memory.wfFrom, Bool.and_eq_true, decide_eq_true_eq, bne_iff_ne] at h'
      have := e k
      simp only [readMem, if_true] at this
      exact absurd this.symm h'.1.2
  | cons c rest ih =>
    obtain ⟨k, b⟩ := c
    simp only [Memory.wfFrom, Bool.and_eq_true, decide_eq_true_eq, bne_iff_ne] at h
    cases m' with
    | nil =>
      have := e k
      simp only [readMem, if_true] at this
      exact absurd this h.1.2
    | cons c' rest' =>
      obtain ⟨k', b'⟩ := c'
      simp only [Memory.wfFrom, Bool.and_eq_true, decide_eq_true_eq, bne_iff_ne] at h'
      have hk : k = k' := by
        rcases Nat.lt_trichotomy k k' with hlt | heq | hgt
        · have e1 := e k
          have : k' ≠ k := by omega
          simp only [readMem, if_true, this, if_false] at e1
          rw [readMem_below h'.2 (by omega)] at e1
          exact absurd e1 h.1.2
        · exact heq
        · have e1 := e k'
          have : k ≠ k' := by omega
          simp only [readMem, if_true, this, if_false] at e1
          rw [readMem_below h.2 (by omega)] at e1
          exact absurd e1.symm h'.1.2
      subst hk
      have hb : b = b' := by simpa [readMem] using e k
      subst hb
      congr 1
      refine ih h.2 h'.2 fun a => ?_
      by_cases hka : a < k + 1
      · rw [readMem_below h.2 hka, readMem_below h'.2 hka]
      · have : k ≠ a := by omega
        simpa [readMem, this] using e a

@[simp] theorem length_readBytes (m : Memory) (a n : Nat) : (readBytes m a n).length = n := by
  induction n generalizing a with
  | zero => rfl
  | succ n ih => simp [readBytes, ih]

theorem getElem_readBytes (m : Memory) (a n k : Nat) (h : k < (readBytes m a n).length) :
    (readBytes m a n)[k] = readMem m (a + k) := by
  induction n generalizing a k with
  | zero => simp [readBytes] at h
  | succ n ih =>
    cases k with
    | zero => rfl
    | succ k =>
      have e : a + 1 + k = a + (k + 1) := by omega
      simp only [readBytes, List.getElem_cons_succ, ih, e]

end Sys2Proof.Machine
end

