-- ==== Sys2Proof/Laws/State.lean ====
section
/-!
SUPPORT. One lemma per field per named update: the fields an update leaves alone, and what the
others become. Register reads through every update are at the end.
-/

namespace Sys2Proof.Machine

variable (s : State)

/-! ### `setV` -/

@[simp] theorem cfg_setV (x : RegIdx) (b : Byte) : (s.setV x b).cfg = s.cfg := rfl
@[simp] theorem mem_setV (x : RegIdx) (b : Byte) : (s.setV x b).mem = s.mem := rfl
@[simp] theorem i_setV (x : RegIdx) (b : Byte) : (s.setV x b).i = s.i := rfl
@[simp] theorem pc_setV (x : RegIdx) (b : Byte) : (s.setV x b).pc = s.pc := rfl
@[simp] theorem sp_setV (x : RegIdx) (b : Byte) : (s.setV x b).sp = s.sp := rfl
@[simp] theorem dt_setV (x : RegIdx) (b : Byte) : (s.setV x b).dt = s.dt := rfl
@[simp] theorem st_setV (x : RegIdx) (b : Byte) : (s.setV x b).st = s.st := rfl
@[simp] theorem display_setV (x : RegIdx) (b : Byte) : (s.setV x b).display = s.display := rfl
@[simp] theorem tick_setV (x : RegIdx) (b : Byte) : (s.setV x b).tick = s.tick := rfl
@[simp] theorem status_setV (x : RegIdx) (b : Byte) : (s.setV x b).status = s.status := rfl
@[simp] theorem inputs_setV (x : RegIdx) (b : Byte) : (s.setV x b).inputs = s.inputs := rfl

/-! ### `advance` -/

@[simp] theorem cfg_advance : s.advance.cfg = s.cfg := rfl
@[simp] theorem mem_advance : s.advance.mem = s.mem := rfl
@[simp] theorem v_advance : s.advance.v = s.v := rfl
@[simp] theorem i_advance : s.advance.i = s.i := rfl
@[simp] theorem sp_advance : s.advance.sp = s.sp := rfl
@[simp] theorem dt_advance : s.advance.dt = s.dt := rfl
@[simp] theorem st_advance : s.advance.st = s.st := rfl
@[simp] theorem display_advance : s.advance.display = s.display := rfl
@[simp] theorem tick_advance : s.advance.tick = s.tick := rfl
@[simp] theorem status_advance : s.advance.status = s.status := rfl
@[simp] theorem inputs_advance : s.advance.inputs = s.inputs := rfl

/-! ### `skipIf` -/

@[simp] theorem cfg_skipIf (c : Bool) : (s.skipIf c).cfg = s.cfg := rfl
@[simp] theorem mem_skipIf (c : Bool) : (s.skipIf c).mem = s.mem := rfl
@[simp] theorem v_skipIf (c : Bool) : (s.skipIf c).v = s.v := rfl
@[simp] theorem i_skipIf (c : Bool) : (s.skipIf c).i = s.i := rfl
@[simp] theorem sp_skipIf (c : Bool) : (s.skipIf c).sp = s.sp := rfl
@[simp] theorem dt_skipIf (c : Bool) : (s.skipIf c).dt = s.dt := rfl
@[simp] theorem st_skipIf (c : Bool) : (s.skipIf c).st = s.st := rfl
@[simp] theorem display_skipIf (c : Bool) : (s.skipIf c).display = s.display := rfl
@[simp] theorem tick_skipIf (c : Bool) : (s.skipIf c).tick = s.tick := rfl
@[simp] theorem status_skipIf (c : Bool) : (s.skipIf c).status = s.status := rfl
@[simp] theorem inputs_skipIf (c : Bool) : (s.skipIf c).inputs = s.inputs := rfl

/-! ### `jump` -/

@[simp] theorem cfg_jump (w : Word) : (s.jump w).cfg = s.cfg := rfl
@[simp] theorem mem_jump (w : Word) : (s.jump w).mem = s.mem := rfl
@[simp] theorem v_jump (w : Word) : (s.jump w).v = s.v := rfl
@[simp] theorem i_jump (w : Word) : (s.jump w).i = s.i := rfl
@[simp] theorem sp_jump (w : Word) : (s.jump w).sp = s.sp := rfl
@[simp] theorem dt_jump (w : Word) : (s.jump w).dt = s.dt := rfl
@[simp] theorem st_jump (w : Word) : (s.jump w).st = s.st := rfl
@[simp] theorem display_jump (w : Word) : (s.jump w).display = s.display := rfl
@[simp] theorem tick_jump (w : Word) : (s.jump w).tick = s.tick := rfl
@[simp] theorem status_jump (w : Word) : (s.jump w).status = s.status := rfl
@[simp] theorem inputs_jump (w : Word) : (s.jump w).inputs = s.inputs := rfl

/-! ### `flagThenDest` -/

@[simp] theorem cfg_flagThenDest (x : RegIdx) (f b : Byte) : (s.flagThenDest x f b).cfg = s.cfg := rfl
@[simp] theorem mem_flagThenDest (x : RegIdx) (f b : Byte) : (s.flagThenDest x f b).mem = s.mem := rfl
@[simp] theorem i_flagThenDest (x : RegIdx) (f b : Byte) : (s.flagThenDest x f b).i = s.i := rfl
@[simp] theorem pc_flagThenDest (x : RegIdx) (f b : Byte) : (s.flagThenDest x f b).pc = s.pc := rfl
@[simp] theorem sp_flagThenDest (x : RegIdx) (f b : Byte) : (s.flagThenDest x f b).sp = s.sp := rfl
@[simp] theorem dt_flagThenDest (x : RegIdx) (f b : Byte) : (s.flagThenDest x f b).dt = s.dt := rfl
@[simp] theorem st_flagThenDest (x : RegIdx) (f b : Byte) : (s.flagThenDest x f b).st = s.st := rfl
@[simp] theorem display_flagThenDest (x : RegIdx) (f b : Byte) : (s.flagThenDest x f b).display = s.display := rfl
@[simp] theorem tick_flagThenDest (x : RegIdx) (f b : Byte) : (s.flagThenDest x f b).tick = s.tick := rfl
@[simp] theorem status_flagThenDest (x : RegIdx) (f b : Byte) : (s.flagThenDest x f b).status = s.status := rfl
@[simp] theorem inputs_flagThenDest (x : RegIdx) (f b : Byte) : (s.flagThenDest x f b).inputs = s.inputs := rfl

/-! ### `takeKbd` -/

@[simp] theorem cfg_takeKbd : s.takeKbd.cfg = s.cfg := rfl
@[simp] theorem mem_takeKbd : s.takeKbd.mem = s.mem := rfl
@[simp] theorem v_takeKbd : s.takeKbd.v = s.v := rfl
@[simp] theorem i_takeKbd : s.takeKbd.i = s.i := rfl
@[simp] theorem pc_takeKbd : s.takeKbd.pc = s.pc := rfl
@[simp] theorem sp_takeKbd : s.takeKbd.sp = s.sp := rfl
@[simp] theorem dt_takeKbd : s.takeKbd.dt = s.dt := rfl
@[simp] theorem st_takeKbd : s.takeKbd.st = s.st := rfl
@[simp] theorem display_takeKbd : s.takeKbd.display = s.display := rfl
@[simp] theorem tick_takeKbd : s.takeKbd.tick = s.tick := rfl
@[simp] theorem status_takeKbd : s.takeKbd.status = s.status := rfl

/-! ### `tickTimers` -/

@[simp] theorem cfg_tickTimers : s.tickTimers.cfg = s.cfg := rfl
@[simp] theorem mem_tickTimers : s.tickTimers.mem = s.mem := rfl
@[simp] theorem v_tickTimers : s.tickTimers.v = s.v := rfl
@[simp] theorem i_tickTimers : s.tickTimers.i = s.i := rfl
@[simp] theorem pc_tickTimers : s.tickTimers.pc = s.pc := rfl
@[simp] theorem sp_tickTimers : s.tickTimers.sp = s.sp := rfl
@[simp] theorem display_tickTimers : s.tickTimers.display = s.display := rfl
@[simp] theorem tick_tickTimers : s.tickTimers.tick = s.tick := rfl
@[simp] theorem status_tickTimers : s.tickTimers.status = s.status := rfl
@[simp] theorem inputs_tickTimers : s.tickTimers.inputs = s.inputs := rfl

theorem tickTimersPort_running {s : State} (h : s.status = .running) :
    s.tickTimersPort = s.tickTimers := by
  simp only [State.tickTimersPort, h]

/-! ### `takeRnd` -/

@[simp] theorem cfg_takeRnd : s.takeRnd.cfg = s.cfg := by unfold State.takeRnd; split <;> rfl
@[simp] theorem mem_takeRnd : s.takeRnd.mem = s.mem := by unfold State.takeRnd; split <;> rfl
@[simp] theorem v_takeRnd : s.takeRnd.v = s.v := by unfold State.takeRnd; split <;> rfl
@[simp] theorem i_takeRnd : s.takeRnd.i = s.i := by unfold State.takeRnd; split <;> rfl
@[simp] theorem pc_takeRnd : s.takeRnd.pc = s.pc := by unfold State.takeRnd; split <;> rfl
@[simp] theorem sp_takeRnd : s.takeRnd.sp = s.sp := by unfold State.takeRnd; split <;> rfl
@[simp] theorem dt_takeRnd : s.takeRnd.dt = s.dt := by unfold State.takeRnd; split <;> rfl
@[simp] theorem st_takeRnd : s.takeRnd.st = s.st := by unfold State.takeRnd; split <;> rfl
@[simp] theorem display_takeRnd : s.takeRnd.display = s.display := by unfold State.takeRnd; split <;> rfl
@[simp] theorem tick_takeRnd : s.takeRnd.tick = s.tick := by unfold State.takeRnd; split <;> rfl
@[simp] theorem status_takeRnd : s.takeRnd.status = s.status := by unfold State.takeRnd; split <;> rfl

/-! ### `countStep` -/

@[simp] theorem cfg_countStep : s.countStep.cfg = s.cfg := by unfold State.countStep; split <;> rfl
@[simp] theorem mem_countStep : s.countStep.mem = s.mem := by unfold State.countStep; split <;> rfl
@[simp] theorem v_countStep : s.countStep.v = s.v := by unfold State.countStep; split <;> rfl
@[simp] theorem i_countStep : s.countStep.i = s.i := by unfold State.countStep; split <;> rfl
@[simp] theorem pc_countStep : s.countStep.pc = s.pc := by unfold State.countStep; split <;> rfl
@[simp] theorem sp_countStep : s.countStep.sp = s.sp := by unfold State.countStep; split <;> rfl
@[simp] theorem display_countStep : s.countStep.display = s.display := by unfold State.countStep; split <;> rfl
@[simp] theorem status_countStep : s.countStep.status = s.status := by unfold State.countStep; split <;> rfl
@[simp] theorem inputs_countStep : s.countStep.inputs = s.inputs := by unfold State.countStep; split <;> rfl

/-! ### The fields that change -/

@[simp] theorem pc_advance : s.advance.pc = s.pc + 2 := rfl

@[simp] theorem pc_skipIf (c : Bool) : (s.skipIf c).pc = if c then s.pc + 4 else s.pc + 2 := rfl

@[simp] theorem pc_jump (w : Word) : (s.jump w).pc = w := rfl

@[simp] theorem inputs_takeKbd : s.takeKbd.inputs = s.inputs.takeKey := rfl

/-! ### Register reads -/

@[simp] theorem getV_setV_same (x : RegIdx) (b : Byte) : (s.setV x b).getV x = b := by
  simp [State.setV, State.getV, Vector.get_eq_getElem]

theorem getV_setV_of_ne (x r : RegIdx) (b : Byte) (h : r ≠ x) : (s.setV x b).getV r = s.getV r := by
  have h' : x.toNat ≠ r.toNat := fun e => h (BitVec.eq_of_toNat_eq e.symm)
  simp [State.setV, State.getV, Vector.get_eq_getElem, Vector.getElem_set_ne, h']

theorem getV_setV (x r : RegIdx) (b : Byte) :
    (s.setV x b).getV r = if r = x then b else s.getV r := by
  split
  · next h => subst h; simp
  · next h => exact getV_setV_of_ne s x r b h

/-- Registers are read from `v` alone. -/
theorem getV_congr {s t : State} (h : t.v = s.v) (r : RegIdx) : t.getV r = s.getV r := by
  simp [State.getV, h]

@[simp] theorem getV_advance (r : RegIdx) : s.advance.getV r = s.getV r := getV_congr (v_advance s) r
@[simp] theorem getV_skipIf (c : Bool) (r : RegIdx) : (s.skipIf c).getV r = s.getV r := getV_congr (v_skipIf s c) r
@[simp] theorem getV_jump (w : Word) (r : RegIdx) : (s.jump w).getV r = s.getV r := getV_congr (v_jump s w) r
@[simp] theorem getV_takeKbd (r : RegIdx) : s.takeKbd.getV r = s.getV r := getV_congr (v_takeKbd s) r
@[simp] theorem getV_tickTimers (r : RegIdx) : s.tickTimers.getV r = s.getV r := getV_congr (v_tickTimers s) r
@[simp] theorem getV_takeRnd (r : RegIdx) : s.takeRnd.getV r = s.getV r := getV_congr (v_takeRnd s) r
@[simp] theorem getV_countStep (r : RegIdx) : s.countStep.getV r = s.getV r := getV_congr (v_countStep s) r

/-- The two writes of a flag-setting instruction, flag first (R24). -/
theorem getV_flagThenDest (x r : RegIdx) (f b : Byte) :
    (s.flagThenDest x f b).getV r =
      if r = x then b else if r = Config.flagReg then f else s.getV r := by
  simp only [State.flagThenDest, getV_setV]

/-- Two register files with the same reads are the same. -/
theorem v_ext {s t : State} (h : ∀ r, t.getV r = s.getV r) : t.v = s.v := by
  apply Vector.ext
  intro j hj
  simpa [State.getV, Vector.get_eq_getElem, Nat.mod_eq_of_lt hj] using h (BitVec.ofNat 4 j)

end Sys2Proof.Machine
end

