-- ==== Sys2Proof/Laws/Ops.lean ====
section
/-!
SUPPORT. What each shared operation can do, said once: the bounds check, raising, the stack, the
display attachment, the blit, the fetch and the end of a step.
-/

namespace Sys2Proof.Machine

/-! ### The bounds check -/

theorem boundsError_eq_none {s : State} {a n : Nat} :
    boundsError s a n = none ↔ n = 0 ∨ a + n ≤ Config.memSize := by
  unfold boundsError firstOutOfRange
  by_cases h : n = 0 ∨ a + n ≤ Config.memSize <;> simp [h]

/-- The only error a bounds check raises, and where its address comes from. -/
theorem boundsError_eq_some {s : State} {a n : Nat} {e : FatalError} :
    boundsError s a n = some e ↔
      n ≠ 0 ∧ Config.memSize < a + n ∧
        e = .memoryBounds s.pc (BitVec.ofNat 16 (max a Config.memSize)) := by
  unfold boundsError firstOutOfRange
  by_cases h : n = 0 ∨ a + n ≤ Config.memSize
  · simp only [h, if_true]
    constructor
    · intro h'; cases h'
    · rintro ⟨h1, h2, -⟩; omega
  · simp only [h, if_false, Option.some.injEq]
    constructor
    · rintro rfl; exact ⟨by omega, by omega, rfl⟩
    · rintro ⟨-, -, rfl⟩; rfl

/-- The bad address as a number: 0x1000 when the access starts in memory, else where it starts. -/
theorem badAddr_eq (a : Word) :
    BitVec.ofNat 16 (max a.toNat Config.memSize) = if a.toNat ≤ 0xFFF then 0x1000 else a := by
  split
  · rw [Nat.max_eq_right (by simp only [Config.memSize]; omega)]; rfl
  · rw [Nat.max_eq_left (by simp only [Config.memSize]; omega), BitVec.ofNat_toNat,
      BitVec.setWidth_eq]

/-! ### Raising -/

theorem raise_eq (s : State) (e : FatalError) :
    s.raise e = .next { s with status := .halted e } := rfl

@[simp] theorem guard_none (s : State) (r : Result) : s.guard none r = r := rfl

@[simp] theorem guard_some (s : State) (e : FatalError) (r : Result) :
    s.guard (some e) r = .next { s with status := .halted e } := rfl

/-- A guarded outcome raises its error, or is the guarded one. -/
theorem guard_cases {s : State} {o : Option FatalError} {r q : Result} (h : s.guard o r = q) :
    (∃ e, o = some e ∧ q = .next { s with status := .halted e }) ∨ (o = none ∧ q = r) := by
  cases o with
  | none => exact .inr ⟨rfl, h.symm⟩
  | some e => exact .inl ⟨e, rfl, h.symm⟩

@[simp] theorem bindError_ok {α : Type} (s : State) (a : α) (f : α → Result) :
    s.bindError (.ok a) f = f a := rfl

@[simp] theorem bindError_error {α : Type} (s : State) (e : FatalError) (f : α → Result) :
    s.bindError (.error e) f = .next { s with status := .halted e } := rfl

/-! ### The display attachment -/

theorem needsDisplay_attached {s : State} (i : Instr) (h : s.cfg.displayAttached = true) :
    s.needsDisplay i = none := by
  simp [State.needsDisplay, h]

theorem needsDisplay_headless {s : State} (i : Instr) (h : s.cfg.displayAttached = false) :
    s.needsDisplay i = some (.configurationError (encode i) s.pc) := by
  simp [State.needsDisplay, h]

/-! ### The stack -/

/-- A push that succeeds: SP is 2 higher, the word stands there, nothing else differs. -/
theorem push_eq_ok {s t : State} {w : Word} (h : s.push w = .ok t) :
    s.sp.toNat + 2 ≤ s.cfg.spMax ∧ s.sp.toNat + 4 ≤ Config.memSize ∧
      t = { s with
        mem := writeWord s.mem (s.sp.toNat + 2) w
        sp := BitVec.ofNat 16 (s.sp.toNat + 2) } := by
  unfold State.push at h
  simp only at h
  split at h
  · cases h
  · split at h
    · cases h
    · next hb =>
      rw [boundsError_eq_none] at hb
      exact ⟨by omega, by omega, by simpa using h.symm⟩

/-- A push with room in the region and in memory succeeds. -/
theorem push_ok {s : State} (w : Word) (h1 : s.sp.toNat + 2 ≤ s.cfg.spMax)
    (h2 : s.sp.toNat + 4 ≤ Config.memSize) :
    s.push w = .ok { s with
      mem := writeWord s.mem (s.sp.toNat + 2) w
      sp := BitVec.ofNat 16 (s.sp.toNat + 2) } := by
  have hb : boundsError s (s.sp.toNat + 2) 2 = none :=
    boundsError_eq_none.mpr (.inr (by omega))
  have : ¬ s.cfg.spMax < s.sp.toNat + 2 := by omega
  simp [State.push, this, hb]

/-- A push past `SP_MAX` overflows (R140). -/
theorem push_overflow {s : State} (w : Word) (h : s.cfg.spMax < s.sp.toNat + 2) :
    s.push w = .error (.stackOverflow s.pc s.sp) := by
  simp [State.push, h]

/-- The errors a push raises, and when. -/
theorem push_error {s : State} {w : Word} {e : FatalError} (h : s.push w = .error e) :
    (e = .stackOverflow s.pc s.sp ∧ s.cfg.spMax < s.sp.toNat + 2) ∨
      ∃ a, e = .memoryBounds s.pc a ∧ s.sp.toNat + 2 ≤ s.cfg.spMax ∧
        Config.memSize < s.sp.toNat + 4 := by
  by_cases h1 : s.cfg.spMax < s.sp.toNat + 2
  · rw [push_overflow w h1] at h; cases h; exact .inl ⟨rfl, h1⟩
  · unfold State.push at h
    simp only [h1, if_false] at h
    split at h
    · next e' hb =>
      obtain ⟨-, h2, h3⟩ := boundsError_eq_some.mp hb
      cases h
      exact .inr ⟨_, h3, by omega, by omega⟩
    · cases h

/-- A pop that succeeds: the word at SP, and SP 2 lower. -/
theorem pop_eq_ok {s t : State} {w : Word} (h : s.pop = .ok (w, t)) :
    s.sp.toNat ≠ s.cfg.spEmpty ∧ s.sp.toNat + 2 ≤ Config.memSize ∧
      w = readWord s.mem s.sp.toNat ∧ t = { s with sp := s.sp - 2 } := by
  unfold State.pop at h
  split at h
  · cases h
  · split at h
    · cases h
    · next hne _ hb =>
      rw [boundsError_eq_none] at hb
      simp only [Except.ok.injEq, Prod.mk.injEq] at h
      exact ⟨hne, by omega, h.1.symm, h.2.symm⟩

theorem pop_ok {s : State} (h1 : s.sp.toNat ≠ s.cfg.spEmpty)
    (h2 : s.sp.toNat + 2 ≤ Config.memSize) :
    s.pop = .ok (readWord s.mem s.sp.toNat, { s with sp := s.sp - 2 }) := by
  have hb : boundsError s s.sp.toNat 2 = none := boundsError_eq_none.mpr (.inr (by omega))
  simp [State.pop, h1, hb]

/-- A pop of the empty stack underflows (R141). -/
theorem pop_underflow {s : State} (h : s.sp.toNat = s.cfg.spEmpty) :
    s.pop = .error (.stackUnderflow s.pc s.sp) := by
  simp [State.pop, h]

/-- The errors a pop raises, and when. -/
theorem pop_error {s : State} {e : FatalError} (h : s.pop = .error e) :
    (e = .stackUnderflow s.pc s.sp ∧ s.sp.toNat = s.cfg.spEmpty) ∨
      ∃ a, e = .memoryBounds s.pc a ∧ s.sp.toNat ≠ s.cfg.spEmpty ∧
        Config.memSize < s.sp.toNat + 2 := by
  by_cases h1 : s.sp.toNat = s.cfg.spEmpty
  · rw [pop_underflow h1] at h; cases h; exact .inl ⟨rfl, h1⟩
  · unfold State.pop at h
    simp only [h1, if_false] at h
    split at h
    · next e' hb =>
      obtain ⟨-, h2, h3⟩ := boundsError_eq_some.mp hb
      cases h
      exact .inr ⟨_, h3, h1, by omega⟩
    · cases h

/-! ### The block operands -/

@[simp] theorem length_regsUpTo (s : State) (x : RegIdx) :
    (s.regsUpTo x).length = x.toNat + 1 := by
  have := x.isLt
  simp [State.regsUpTo]
  omega

theorem getElem?_regsUpTo (s : State) {x r : RegIdx} (h : r.toNat ≤ x.toNat) :
    (s.regsUpTo x)[r.toNat]? = some (s.getV r) := by
  have h16 := r.isLt
  rw [State.regsUpTo, List.getElem?_take_of_lt (by omega), State.getV, Vector.get_eq_getElem]
  simp

theorem get_loadUpTo (s : State) (x r : RegIdx) :
    (s.loadUpTo x).get ⟨r.toNat, r.isLt⟩ =
      if r.toNat ≤ x.toNat then readMem s.mem (s.i.toNat + r.toNat) else s.getV r := by
  simp [State.getV, State.loadUpTo, Vector.get_eq_getElem]

/-! ### The display -/

theorem getPixel_drawPixel (d : Display) (px qx : Fin 64) (py qy : Fin 32) (c : Bool) :
    (d.drawPixel px py c).getPixel qx qy =
      if qx = px ∧ qy = py then c else d.getPixel qx qy := by
  simp only [Display.drawPixel, Display.getPixel, Vector.get_eq_getElem, Vector.getElem_set]
  by_cases hx : qx = px
  · subst hx
    by_cases hy : qy = py
    · subst hy; simp
    · have : py.val ≠ qy.val := fun e => hy (Fin.ext e.symm)
      simp [hy, this]
  · have : px.val ≠ qx.val := fun e => hx (Fin.ext e.symm)
    simp [hx, this]

@[simp] theorem getPixel_clear (d : Display) (c : Bool) (px : Fin 64) (py : Fin 32) :
    (d.clear c).getPixel px py = c := by
  simp [Display.clear, Display.getPixel, FrameBuffer.filled, Vector.get_eq_getElem]

@[simp] theorem getPixel_present (d : Display) (px : Fin 64) (py : Fin 32) :
    d.present.getPixel px py = d.getPixel px py := rfl

@[simp] theorem fb_present (d : Display) : d.present.fb = d.fb := rfl

@[simp] theorem calls_present (d : Display) : d.present.calls = d.calls ++ [.present] := rfl

/-- Framebuffers with the same pixels are the same. -/
theorem fb_ext {d e : Display} (h : ∀ px py, d.getPixel px py = e.getPixel px py) :
    d.fb = e.fb := by
  apply Vector.ext
  intro a ha
  apply Vector.ext
  intro b hb
  exact h ⟨a, ha⟩ ⟨b, hb⟩

/-! ### The fetch and the end of a step -/

/-- A fetch that succeeds: PC even, both bytes in memory, a word that decodes. -/
theorem fetch_eq_ok {s : State} {i : Instr} (h : s.fetch = .ok i) :
    s.pc.toNat % 2 = 0 ∧ s.pc.toNat + 2 ≤ Config.memSize ∧
      decode (readWord s.mem s.pc.toNat) = some i := by
  unfold State.fetch at h
  split at h
  · cases h
  · next hodd =>
    split at h
    · cases h
    · next hb =>
      rw [boundsError_eq_none] at hb
      simp only [Config.insnBytes] at hb
      split at h
      · cases h
      · next j hd =>
        cases h
        exact ⟨by omega, by omega, hd⟩

theorem fetch_ok {s : State} {i : Instr} (h1 : s.pc.toNat % 2 = 0)
    (h2 : s.pc.toNat + 2 ≤ Config.memSize) (h3 : decode (readWord s.mem s.pc.toNat) = some i) :
    s.fetch = .ok i := by
  have hb : boundsError s s.pc.toNat Config.insnBytes = none :=
    boundsError_eq_none.mpr (.inr h2)
  unfold State.fetch
  rw [hb, h3]
  simp [h1]

/-- What follows an execution: an error or a stall leaves its state, a completion is counted. -/
theorem afterExec_cases (s : State) (i : Instr) (t : State) :
    (∃ e, t.status = .halted e ∧ s.afterExec i t = t) ∨
      (t.status = .running ∧ s.stalls i = true ∧ s.afterExec i t = t) ∨
      (t.status = .running ∧ s.stalls i = false ∧ s.afterExec i t = t.countStep) := by
  unfold State.afterExec
  split
  · next e h => exact .inl ⟨e, h, rfl⟩
  · next h => cases hs : s.stalls i <;> simp [h]

end Sys2Proof.Machine
end

