-- ==== Sys2Proof/Laws/Display.lean ====
section
/-!
SUPPORT. What the blit of DRW does, said once: every pixel is XORed with the sprite bit over it, a
collision is a set pixel under a sprite bit, and the calls are the draws of the pixels that change.
-/

namespace Sys2Proof.Machine

/-- Some column of `js` of the sprite row lies over the pixel column `px`, and its bit is 1. -/
def columnHit (row : Byte) (cx : Nat) (px : Fin 64) (js : List Nat) : Bool :=
  js.any fun j => row.getLsbD (7 - j) && decide (px = Fin.ofNat 64 (cx + j))

/-- One sprite bit: the pixel under it is toggled, a set one is a collision, one draw is called. -/
theorem pixel_spec (b : Blit) (px : Fin 64) (py : Fin 32) :
    (∀ qx qy, (b.pixel px py).display.getPixel qx qy =
      (b.display.getPixel qx qy ^^ (decide (qy = py) && decide (qx = px)))) ∧
    (b.pixel px py).collision = (b.collision || b.display.getPixel px py) ∧
    (b.pixel px py).display.calls =
      b.display.calls ++ [.drawPixel px py (!b.display.getPixel px py)] := by
  refine ⟨fun qx qy => ?_, rfl, rfl⟩
  simp only [Blit.pixel, getPixel_drawPixel]
  by_cases hx : qx = px <;> by_cases hy : qy = py <;> simp [hx, hy]

/-- One sprite row, its columns `js` distinct: the pixels of row `py` under its bits are toggled. -/
theorem columns_spec {b : Blit} {row : Byte} {cx : Nat} {py : Fin 32} {js : List Nat}
    (hj : ∀ j ∈ js, j < 8) (hn : js.Nodup) :
    (∀ qx qy, (b.columns row cx py js).display.getPixel qx qy =
      (b.display.getPixel qx qy ^^ (decide (qy = py) && columnHit row cx qx js))) ∧
    ((b.columns row cx py js).collision = true ↔ b.collision = true ∨
      ∃ qx, columnHit row cx qx js = true ∧ b.display.getPixel qx py = true) ∧
    ∃ draws, (b.columns row cx py js).display.calls = b.display.calls ++ draws ∧ draws.Nodup ∧
      ∀ c, c ∈ draws ↔ ∃ qx, columnHit row cx qx js = true ∧
        c = .drawPixel qx py (!b.display.getPixel qx py) := by
  induction js generalizing b with
  | nil => exact ⟨by simp [Blit.columns, columnHit], by simp [Blit.columns, columnHit],
      [], by simp [Blit.columns], List.nodup_nil, by simp [columnHit]⟩
  | cons j rest ih =>
    have hr : ∀ k ∈ rest, k < 8 := fun k hk => hj k (List.mem_cons_of_mem _ hk)
    have hj8 : j < 8 := hj j List.mem_cons_self
    obtain ⟨hjr, hnr⟩ := List.nodup_cons.mp hn
    by_cases hb : row.getLsbD (7 - j) = true
    · obtain ⟨p1, p2, p3⟩ := pixel_spec b (Fin.ofNat 64 (cx + j)) py
      obtain ⟨i1, i2, draws, i3, i5, i4⟩ := ih (b := b.pixel (Fin.ofNat 64 (cx + j)) py) hr hnr
      have far : columnHit row cx (Fin.ofNat 64 (cx + j)) rest = false := by
        rw [columnHit, List.any_eq_false]
        intro k hk
        have h8 := hr k hk
        have hne : j ≠ k := fun e => hjr (e ▸ hk)
        have : Fin.ofNat 64 (cx + j) ≠ Fin.ofNat 64 (cx + k) := by
          intro e
          have e' := congrArg Fin.val e
          simp only [Fin.val_ofNat] at e'
          omega
        simp [this, -Fin.ofNat_eq_cast]
      have hit : ∀ qx, columnHit row cx qx (j :: rest) =
          (decide (qx = Fin.ofNat 64 (cx + j)) || columnHit row cx qx rest) := by
        intro qx; simp [columnHit, hb]
      have e : b.columns row cx py (j :: rest) =
          (b.pixel (Fin.ofNat 64 (cx + j)) py).columns row cx py rest := by
        simp [Blit.columns, hb]
      rw [e]
      refine ⟨fun qx qy => ?_, ?_, [.drawPixel (Fin.ofNat 64 (cx + j)) py
        (!b.display.getPixel (Fin.ofNat 64 (cx + j)) py)] ++ draws, ?_, ?_, fun c => ?_⟩
      · rw [i1, p1, hit]
        by_cases hx : qx = Fin.ofNat 64 (cx + j)
        · subst hx; rw [far]; simp
        · simp [hx, -Fin.ofNat_eq_cast]
      · rw [i2, p2]
        simp only [Bool.or_eq_true, hit, decide_eq_true_eq]
        constructor
        · rintro ((h | h) | ⟨qx, h1, h2⟩)
          · exact .inl h
          · exact .inr ⟨_, .inl rfl, h⟩
          · refine .inr ⟨qx, .inr h1, ?_⟩
            rw [p1] at h2
            have : qx ≠ Fin.ofNat 64 (cx + j) := by rintro rfl; rw [far] at h1; cases h1
            simpa [this, -Fin.ofNat_eq_cast] using h2
        · rintro (h | ⟨qx, h1 | h1, h2⟩)
          · exact .inl (.inl h)
          · exact .inl (.inr (h1 ▸ h2))
          · refine .inr ⟨qx, h1, ?_⟩
            rw [p1]
            have : qx ≠ Fin.ofNat 64 (cx + j) := by rintro rfl; rw [far] at h1; cases h1
            simpa [this, -Fin.ofNat_eq_cast] using h2
      · rw [i3, p3, List.append_assoc]
      · refine List.nodup_cons.mpr ⟨fun h => ?_, i5⟩
        obtain ⟨qx, h1, h2⟩ := (i4 _).mp h
        injection h2 with h2
        rw [← h2, far] at h1
        cases h1
      · rw [List.mem_append, List.mem_singleton, i4]
        have same : ∀ qx, columnHit row cx qx rest = true →
            (b.pixel (Fin.ofNat 64 (cx + j)) py).display.getPixel qx py =
              b.display.getPixel qx py := by
          intro qx hq
          have hne : qx ≠ Fin.ofNat 64 (cx + j) := by rintro rfl; rw [far] at hq; cases hq
          rw [p1]; simp [hne, -Fin.ofNat_eq_cast]
        constructor
        · rintro (rfl | ⟨qx, h1, h2⟩)
          · exact ⟨_, by rw [hit]; simp, rfl⟩
          · exact ⟨qx, by rw [hit, h1]; simp, by rw [h2, same qx h1]⟩
        · rintro ⟨qx, h1, h2⟩
          rw [hit, Bool.or_eq_true, decide_eq_true_eq] at h1
          rcases h1 with rfl | h1
          · exact .inl h2
          · exact .inr ⟨qx, h1, by rw [h2, same qx h1]⟩
    · have hit : ∀ qx, columnHit row cx qx (j :: rest) = columnHit row cx qx rest := by
        intro qx; simp [columnHit, hb]
      have e : b.columns row cx py (j :: rest) = b.columns row cx py rest := by
        simp [Blit.columns, hb]
      rw [e]
      simpa only [hit] using ih (b := b) hr hnr

/-- Among all eight columns, the one over `px` is `(px - cx) mod 64`, if that is below 8. -/
theorem columnHit_range (row : Byte) (cx : Nat) (px : Fin 64) :
    columnHit row cx px (List.range 8) =
      (decide ((px.val + 64 - cx % 64) % 64 < 8) &&
        row.getLsbD (7 - (px.val + 64 - cx % 64) % 64)) := by
  rw [Bool.eq_iff_iff]
  simp only [columnHit, List.any_eq_true, List.mem_range, Bool.and_eq_true, decide_eq_true_eq]
  constructor
  · rintro ⟨j, hj, h1, h2⟩
    have e : (px.val + 64 - cx % 64) % 64 = j := by
      have := congrArg Fin.val h2
      simp only [Fin.val_ofNat] at this
      omega
    rw [e]; exact ⟨hj, h1⟩
  · rintro ⟨h1, h2⟩
    refine ⟨_, h1, h2, Fin.ext ?_⟩
    simp only [Fin.val_ofNat]
    have := px.isLt
    omega

/-- The picture of a sprite of at most 32 rows is its first row over the picture of the rest, which
does not reach that pixel row again. -/
theorem spriteBit_cons (row : Byte) (rest : List Byte) (cx cy : Nat) (px : Fin 64) (py : Fin 32)
    (hl : rest.length ≤ 31) :
    spriteBit (row :: rest) cx cy px py =
      ((decide (py = Fin.ofNat 32 cy) && columnHit row cx px (List.range 8)) ||
        spriteBit rest cx (cy + 1) px py) ∧
    (py = Fin.ofNat 32 cy → spriteBit rest cx (cy + 1) px py = false) := by
  have hpy := py.isLt
  have hiff : py = Fin.ofNat 32 cy ↔ (py.val + 32 - cy % 32) % 32 = 0 := by
    rw [Fin.ext_iff, Fin.val_ofNat]; omega
  rw [columnHit_range]
  by_cases h : (py.val + 32 - cy % 32) % 32 = 0
  · have h' : (py.val + 32 - (cy + 1) % 32) % 32 = 31 := by omega
    have hz : spriteBit rest cx (cy + 1) px py = false := by
      simp [spriteBit, h', List.getD_eq_getElem?_getD, List.getElem?_eq_none hl]
    refine ⟨?_, fun _ => hz⟩
    rw [hz]
    simp [spriteBit, hiff.mpr h]
  · have h' : (py.val + 32 - cy % 32) % 32 = (py.val + 32 - (cy + 1) % 32) % 32 + 1 := by omega
    have hne : ¬ py = Fin.ofNat 32 cy := fun e => h (hiff.mp e)
    refine ⟨?_, fun e => absurd e hne⟩
    simp only [hne, decide_false, Bool.false_and, Bool.false_or]
    simp only [spriteBit, h', List.getD_cons_succ]

theorem rows_spec {b : Blit} {cx cy : Nat} {rows : List Byte} (hl : rows.length ≤ 32) :
    (∀ px py, (b.rows cx cy rows).display.getPixel px py =
      (b.display.getPixel px py ^^ spriteBit rows cx cy px py)) ∧
    ((b.rows cx cy rows).collision = true ↔ b.collision = true ∨
      ∃ px py, b.display.getPixel px py = true ∧ spriteBit rows cx cy px py = true) ∧
    ∃ draws, (b.rows cx cy rows).display.calls = b.display.calls ++ draws ∧ draws.Nodup ∧
      ∀ c, c ∈ draws ↔ ∃ px py, spriteBit rows cx cy px py = true ∧
        c = .drawPixel px py (!b.display.getPixel px py) := by
  induction rows generalizing b cy with
  | nil => exact ⟨by simp [Blit.rows, spriteBit], by simp [Blit.rows, spriteBit],
      [], by simp [Blit.rows], List.nodup_nil, by simp [spriteBit]⟩
  | cons row rest ih =>
    simp only [List.length_cons] at hl
    have hs := fun px py => spriteBit_cons row rest cx cy px py (by omega)
    obtain ⟨c1, c2, d1, c3, c5, c4⟩ := columns_spec (b := b) (row := row) (cx := cx)
      (py := Fin.ofNat 32 cy) (js := List.range 8) (by simp) List.nodup_range
    obtain ⟨i1, i2, d2, i3, i5, i4⟩ := ih
      (b := b.columns row cx (Fin.ofNat 32 cy) (List.range 8)) (cy := cy + 1) (by omega)
    have e : b.rows cx cy (row :: rest) =
        (b.columns row cx (Fin.ofNat 32 cy) (List.range 8)).rows cx (cy + 1) rest := rfl
    rw [e]
    refine ⟨fun px py => ?_, ?_, d1 ++ d2, ?_, ?_, fun c => ?_⟩
    · rw [i1, c1, (hs px py).1]
      by_cases hy : py = Fin.ofNat 32 cy
      · rw [(hs px py).2 hy]; simp [hy, -Fin.ofNat_eq_cast]
      · simp [hy, -Fin.ofNat_eq_cast]
    · rw [i2, c2]
      constructor
      · rintro ((h | ⟨qx, h1, h2⟩) | ⟨px, py, h1, h2⟩)
        · exact .inl h
        · exact .inr ⟨qx, Fin.ofNat 32 cy, h2, by rw [(hs _ _).1]; simp [h1]⟩
        · refine .inr ⟨px, py, ?_, by rw [(hs _ _).1]; simp [h2]⟩
          have hy : py ≠ Fin.ofNat 32 cy := by
            intro hy; rw [(hs px py).2 hy] at h2; cases h2
          rw [c1] at h1
          simpa [hy, -Fin.ofNat_eq_cast] using h1
      · rintro (h | ⟨px, py, h1, h2⟩)
        · exact .inl (.inl h)
        · rw [(hs px py).1] at h2
          by_cases hy : py = Fin.ofNat 32 cy
          · subst hy
            rw [(hs px _).2 rfl] at h2
            exact .inl (.inr ⟨px, by simpa using h2, h1⟩)
          · refine .inr ⟨px, py, ?_, by simpa [hy, -Fin.ofNat_eq_cast] using h2⟩
            rw [c1]; simpa [hy, -Fin.ofNat_eq_cast] using h1
    · rw [i3, c3, List.append_assoc]
    · refine List.nodup_append.mpr ⟨c5, i5, fun c hc c' hc' e => ?_⟩
      obtain ⟨qx, -, h1⟩ := (c4 c).mp hc
      obtain ⟨px, py, h2, h3⟩ := (i4 c').mp hc'
      rw [h1, h3] at e
      injection e with e1 e2
      rw [(hs px py).2 e2.symm] at h2
      cases h2
    · rw [List.mem_append, c4, i4]
      have same : ∀ px py, spriteBit rest cx (cy + 1) px py = true →
          (b.columns row cx (Fin.ofNat 32 cy) (List.range 8)).display.getPixel px py =
            b.display.getPixel px py := by
        intro px py h
        have hy : py ≠ Fin.ofNat 32 cy := by
          intro hy; rw [(hs px py).2 hy] at h; cases h
        rw [c1]; simp [hy, -Fin.ofNat_eq_cast]
      constructor
      · rintro (⟨qx, h1, h2⟩ | ⟨px, py, h1, h2⟩)
        · exact ⟨qx, Fin.ofNat 32 cy, by rw [(hs _ _).1]; simp [h1], h2⟩
        · exact ⟨px, py, by rw [(hs _ _).1]; simp [h1], by rw [h2, same px py h1]⟩
      · rintro ⟨px, py, h1, h2⟩
        rw [(hs px py).1, Bool.or_eq_true, Bool.and_eq_true, decide_eq_true_eq] at h1
        rcases h1 with ⟨rfl, h1⟩ | h1
        · exact .inl ⟨px, h1, h2⟩
        · exact .inr ⟨px, py, h1, by rw [h2, same px py h1]⟩

/-- The whole blit of at most 32 rows: pixels, collision and calls. -/
theorem blit_spec (d : Display) (cx cy : Nat) {rows : List Byte} (hl : rows.length ≤ 32) :
    (∀ px py, (blit d cx cy rows).display.getPixel px py =
      (d.getPixel px py ^^ spriteBit rows cx cy px py)) ∧
    ((blit d cx cy rows).collision = true ↔
      ∃ px py, d.getPixel px py = true ∧ spriteBit rows cx cy px py = true) ∧
    ∃ draws, (blit d cx cy rows).display.calls = d.calls ++ draws ∧ draws.Nodup ∧
      ∀ c, c ∈ draws ↔ ∃ px py, spriteBit rows cx cy px py = true ∧
        c = .drawPixel px py (!d.getPixel px py) := by
  obtain ⟨h1, h2, h3⟩ := rows_spec (b := Blit.mk d false) (cx := cx) (cy := cy) hl
  exact ⟨h1, by simpa [blit] using h2, h3⟩

end Sys2Proof.Machine
end

