-- ==== Sys2Proof/Laws/Exec.lean ====
section
/-!
SUPPORT. One inversion lemma per meaning that can end in more than one way, and one for the step:
"if it answers next t, then one of these holds". Every other meaning is one `.next` by definition.
-/

namespace Sys2Proof.Machine

/-- A guard that answers a next state raised its error, or passed. -/
theorem guard_next {s t : State} {o : Option FatalError} {r : Result} (h : s.guard o r = .next t) :
    (∃ e, o = some e ∧ t = { s with status := .halted e }) ∨ (o = none ∧ r = .next t) := by
  cases o with
  | none => exact .inr ⟨rfl, h⟩
  | some e => exact .inl ⟨e, rfl, by simpa using h.symm⟩

/-- RET underflows, or pops PC; the bounds error of the pop needs an SP beyond memory. -/
theorem execRet_cases {s t : State} (h : execRet s = .next t) :
    (∃ e, s.pop = .error e ∧ t = { s with status := .halted e }) ∨
      (s.sp.toNat ≠ s.cfg.spEmpty ∧ s.sp.toNat + 2 ≤ Config.memSize ∧
        t = { s with sp := s.sp - 2, pc := readWord s.mem s.sp.toNat }) := by
  unfold execRet at h
  cases hp : s.pop with
  | error e => rw [hp] at h; exact .inl ⟨e, rfl, by simpa using h.symm⟩
  | ok r =>
    obtain ⟨w, u⟩ := r
    obtain ⟨h1, h2, rfl, rfl⟩ := pop_eq_ok hp
    rw [hp] at h
    exact .inr ⟨h1, h2, by simpa [State.jump] using h.symm⟩

/-- CALL overflows, or pushes the address after it and jumps. -/
theorem execCall_cases {s t : State} {nnn : Addr} (h : execCall nnn s = .next t) :
    (∃ e, s.push (s.pc + 2) = .error e ∧ t = { s with status := .halted e }) ∨
      (s.sp.toNat + 2 ≤ s.cfg.spMax ∧ s.sp.toNat + 4 ≤ Config.memSize ∧
        t = { s with
          mem := writeWord s.mem (s.sp.toNat + 2) (s.pc + 2)
          sp := BitVec.ofNat 16 (s.sp.toNat + 2)
          pc := addrWord nnn }) := by
  unfold execCall at h
  cases hp : s.push (s.pc + 2) with
  | error e => rw [hp] at h; exact .inl ⟨e, rfl, by simpa using h.symm⟩
  | ok u =>
    obtain ⟨h1, h2, rfl⟩ := push_eq_ok hp
    rw [hp] at h
    exact .inr ⟨h1, h2, by simpa [State.jump] using h.symm⟩

/-- RET with an entry on the stack completes. -/
theorem execRet_ok {s : State} (h1 : s.sp.toNat ≠ s.cfg.spEmpty)
    (h2 : s.sp.toNat + 2 ≤ Config.memSize) :
    execRet s = .next { s with sp := s.sp - 2, pc := readWord s.mem s.sp.toNat } := by
  simp only [execRet, pop_ok h1 h2, bindError_ok, State.jump]

/-- CALL with room on the stack completes. -/
theorem execCall_ok {s : State} (nnn : Addr) (h1 : s.sp.toNat + 2 ≤ s.cfg.spMax)
    (h2 : s.sp.toNat + 4 ≤ Config.memSize) :
    execCall nnn s = .next { s with
      mem := writeWord s.mem (s.sp.toNat + 2) (s.pc + 2)
      sp := BitVec.ofNat 16 (s.sp.toNat + 2)
      pc := addrWord nnn } := by
  simp only [execCall, push_ok _ h1 h2, bindError_ok, State.jump]

/-- LD F, Vx raises above 0xF, or sets I. -/
theorem execLdFVx_cases {s t : State} {x : RegIdx} (h : execLdFVx x s = .next t) :
    (0xF < (s.getV x).toNat ∧
        t = { s with status := .halted (.fontDigitRange s.pc (s.getV x)) }) ∨
      ((s.getV x).toNat ≤ 0xF ∧ t = { s with i := s.glyphAddr (s.getV x), pc := s.pc + 2 }) := by
  unfold execLdFVx at h
  split at h
  · next hd => exact .inl ⟨hd, by simpa [State.raise] using h.symm⟩
  · next hd => exact .inr ⟨by omega, by simpa [State.advance] using h.symm⟩

/-- LD B, Vx raises, or stores three digits. -/
theorem execLdBVx_cases {s t : State} {x : RegIdx} (h : execLdBVx x s = .next t) :
    (∃ e, boundsError s s.i.toNat 3 = some e ∧ t = { s with status := .halted e }) ∨
      (s.i.toNat + 3 ≤ Config.memSize ∧
        t = { s with
          mem := writeBytes s.mem s.i.toNat (bcdDigits (s.getV x))
          pc := s.pc + 2 }) := by
  rcases guard_next h with h' | ⟨hb, h⟩
  · exact .inl h'
  · exact .inr ⟨(boundsError_eq_none.mp hb).resolve_left (by decide),
      by simpa [State.advance] using h.symm⟩

/-- LD [I], Vx raises, or stores V0 to Vx. -/
theorem execLdMemVx_cases {s t : State} {x : RegIdx} (h : execLdMemVx x s = .next t) :
    (∃ e, boundsError s s.i.toNat (x.toNat + 1) = some e ∧ t = { s with status := .halted e }) ∨
      (s.i.toNat + (x.toNat + 1) ≤ Config.memSize ∧
        t = { s with
          mem := writeBytes s.mem s.i.toNat (s.regsUpTo x)
          pc := s.pc + 2 }) := by
  rcases guard_next h with h' | ⟨hb, h⟩
  · exact .inl h'
  · exact .inr ⟨(boundsError_eq_none.mp hb).resolve_left (by omega),
      by simpa [State.advance] using h.symm⟩

/-- LD Vx, [I] raises, or loads V0 to Vx. -/
theorem execLdVxMem_cases {s t : State} {x : RegIdx} (h : execLdVxMem x s = .next t) :
    (∃ e, boundsError s s.i.toNat (x.toNat + 1) = some e ∧ t = { s with status := .halted e }) ∨
      (s.i.toNat + (x.toNat + 1) ≤ Config.memSize ∧
        t = { s with v := s.loadUpTo x, pc := s.pc + 2 }) := by
  rcases guard_next h with h' | ⟨hb, h⟩
  · exact .inl h'
  · exact .inr ⟨(boundsError_eq_none.mp hb).resolve_left (by omega),
      by simpa [State.advance] using h.symm⟩

/-- The display attachment raises `ConfigurationError` and nothing else. -/
theorem needsDisplay_cases (s : State) (i : Instr) :
    (s.cfg.displayAttached = true ∧ s.needsDisplay i = none) ∨
      (s.cfg.displayAttached = false ∧
        s.needsDisplay i = some (.configurationError (encode i) s.pc)) := by
  cases h : s.cfg.displayAttached
  · exact .inr ⟨rfl, needsDisplay_headless i h⟩
  · exact .inl ⟨rfl, needsDisplay_attached i h⟩

/-- The status an instruction that uses the display leaves when headless. -/
abbrev headlessHalt (s : State) (i : Instr) : State :=
  { s with status := .halted (.configurationError (encode i) s.pc) }

/-- A meaning behind the display check raises `ConfigurationError`, or runs attached. -/
theorem guard_display {s t : State} {i : Instr} {r : Result}
    (h : s.guard (s.needsDisplay i) r = .next t) :
    (s.cfg.displayAttached = false ∧ t = headlessHalt s i) ∨
      (s.cfg.displayAttached = true ∧ r = .next t) := by
  rcases needsDisplay_cases s i with ⟨ha, hn⟩ | ⟨ha, hn⟩ <;> rw [hn] at h
  · exact .inr ⟨ha, h⟩
  · exact .inl ⟨ha, by simpa [headlessHalt] using h.symm⟩

/-- The blit a DRW makes. -/
abbrev drawBlit (s : State) (x y : RegIdx) (n : Nibble) : Blit :=
  blit s.display (s.getV x).toNat (s.getV y).toNat (readBytes s.mem s.i.toNat n.toNat)

/-- DRW raises (headless, or a sprite byte out of range), or blits, sets VF and presents. -/
theorem execDrw_cases {s t : State} {x y : RegIdx} {n : Nibble} (h : execDrw x y n s = .next t) :
    (s.cfg.displayAttached = false ∧ t = headlessHalt s (.drw x y n)) ∨
      (∃ e, s.cfg.displayAttached = true ∧ boundsError s s.i.toNat n.toNat = some e ∧
        t = { s with status := .halted e }) ∨
      (s.cfg.displayAttached = true ∧ (n.toNat = 0 ∨ s.i.toNat + n.toNat ≤ Config.memSize) ∧
        t = ({ s with display := (drawBlit s x y n).display.present }.setV Config.flagReg
          (collisionFlag (drawBlit s x y n).collision)).advance) := by
  rcases guard_display h with h' | ⟨ha, h⟩
  · exact .inl h'
  · rcases guard_next h with ⟨e, he, ht⟩ | ⟨hb, h⟩
    · exact .inr (.inl ⟨e, ha, he, ht⟩)
    · exact .inr (.inr ⟨ha, boundsError_eq_none.mp hb, by simpa using h.symm⟩)

/-- LD Vx, K raises when headless, stalls with no key, or takes the key. -/
theorem execLdVxK_cases {s t : State} {x : RegIdx} (h : execLdVxK x s = .next t) :
    (s.cfg.displayAttached = false ∧ t = headlessHalt s (.ldVxK x)) ∨
      (s.cfg.displayAttached = true ∧ s.kbd = none ∧ t = s.takeKbd) ∨
      (∃ k, s.cfg.displayAttached = true ∧ s.kbd = some k ∧
        t = (s.takeKbd.setV x (keyByte k)).advance) := by
  rcases guard_display h with h' | ⟨ha, h⟩
  · exact .inl h'
  · simp only [State.waitKey] at h
    split at h
    · next hk => exact .inr (.inl ⟨ha, hk, by simpa using h.symm⟩)
    · next k hk => exact .inr (.inr ⟨k, ha, hk, by simpa using h.symm⟩)

/-! ### Completion of the guarded meanings -/

theorem boundsError_ok {s : State} {a n : Nat} (h : a + n ≤ Config.memSize) :
    boundsError s a n = none := boundsError_eq_none.mpr (.inr h)

theorem execLdFVx_ok {s : State} {x : RegIdx} (h : (s.getV x).toNat ≤ 0xF) :
    execLdFVx x s = .next { s with i := s.glyphAddr (s.getV x) }.advance := by
  unfold execLdFVx
  rw [if_neg (by omega)]

theorem execLdBVx_ok {s : State} (x : RegIdx) (h : s.i.toNat + 3 ≤ Config.memSize) :
    execLdBVx x s =
      .next { s with mem := writeBytes s.mem s.i.toNat (bcdDigits (s.getV x)) }.advance := by
  rw [execLdBVx, boundsError_ok h, guard_none]

theorem execLdMemVx_ok {s : State} (x : RegIdx)
    (h : s.i.toNat + (x.toNat + 1) ≤ Config.memSize) :
    execLdMemVx x s =
      .next { s with mem := writeBytes s.mem s.i.toNat (s.regsUpTo x) }.advance := by
  rw [execLdMemVx, boundsError_ok h, guard_none]

theorem execLdVxMem_ok {s : State} (x : RegIdx)
    (h : s.i.toNat + (x.toNat + 1) ≤ Config.memSize) :
    execLdVxMem x s = .next { s with v := s.loadUpTo x }.advance := by
  rw [execLdVxMem, boundsError_ok h, guard_none]

theorem execCls_ok {s : State} (h : s.cfg.displayAttached = true) :
    execCls s = .next { s with display := (s.display.clear false).present }.advance := by
  rw [execCls, needsDisplay_attached _ h, guard_none]

theorem execDrw_ok {s : State} (x y : RegIdx) {n : Nibble} (h : s.cfg.displayAttached = true)
    (hb : n.toNat = 0 ∨ s.i.toNat + n.toNat ≤ Config.memSize) :
    execDrw x y n s =
      .next ({ s with display := (drawBlit s x y n).display.present }.setV Config.flagReg
        (collisionFlag (drawBlit s x y n).collision)).advance := by
  rw [execDrw, needsDisplay_attached _ h, boundsError_eq_none.mpr hb, guard_none, guard_none]

theorem execSkp_ok {s : State} (x : RegIdx) (h : s.cfg.displayAttached = true) :
    execSkp x s = .next (s.takeKbd.skipIf (s.keyMatches x)) := by
  rw [execSkp, needsDisplay_attached _ h, guard_none]

theorem execSknp_ok {s : State} (x : RegIdx) (h : s.cfg.displayAttached = true) :
    execSknp x s = .next (s.takeKbd.skipIf (!s.keyMatches x)) := by
  rw [execSknp, needsDisplay_attached _ h, guard_none]

theorem execLdVxK_ok {s : State} {x : RegIdx} {k : Key} (h : s.cfg.displayAttached = true)
    (hk : s.kbd = some k) : execLdVxK x s = .next (s.takeKbd.setV x (keyByte k)).advance := by
  rw [execLdVxK, needsDisplay_attached _ h, guard_none, State.waitKey, hk]

theorem execLdVxK_stall {s : State} {x : RegIdx} (h : s.cfg.displayAttached = true)
    (hk : s.kbd = none) : execLdVxK x s = .next s.takeKbd := by
  rw [execLdVxK, needsDisplay_attached _ h, guard_none, State.waitKey, hk]

/-! ### The step -/

/-- A step that answers a next state started running, and took a fetch error or executed the fetched
instruction. -/
theorem step_cases {s t : State} (h : step s = .next t) :
    s.status = .running ∧
      ((∃ e, s.fetch = .error e ∧ t = { s with status := .halted e }) ∨
        ∃ i u, s.fetch = .ok i ∧ exec i s = .next u ∧ t = s.afterExec i u) := by
  unfold step at h
  split at h
  · cases h
  · next hs =>
    refine ⟨hs, ?_⟩
    split at h
    · next e he => exact .inl ⟨e, he, by simpa [State.raise] using h.symm⟩
    · next i hi =>
      unfold State.finish at h
      split at h
      · next u hu => exact .inr ⟨i, u, hi, hu, by simpa using h.symm⟩
      · cases h
      · cases h

/-- A fetch error of a running machine is taken as a fatal error (R112). -/
theorem step_of_fetch_error {s : State} {e : FatalError} (hs : s.status = .running)
    (hf : s.fetch = .error e) : step s = .next { s with status := .halted e } := by
  simp only [step, hs, hf, State.raise]

/-- A fetched instruction of a running machine is executed, then counted or not (R112, R117). -/
theorem step_of_fetch_ok {s t : State} {i : Instr} (hs : s.status = .running)
    (hf : s.fetch = .ok i) (he : exec i s = .next t) : step s = .next (s.afterExec i t) := by
  simp only [step, hs, hf, he, State.finish]

/-- The status after a step is the status after its execution. -/
@[simp] theorem status_afterExec (s : State) (i : Instr) (t : State) :
    (s.afterExec i t).status = t.status := by
  rcases afterExec_cases s i t with ⟨e, -, h⟩ | ⟨-, -, h⟩ | ⟨-, -, h⟩ <;> rw [h]
  simp

end Sys2Proof.Machine
end

