-- ==== Sys2Proof/Laws/PerInstr.lean ====
section
/-!
SUPPORT. Statements about each instruction as syntax. `RowSelects`: of the 34 rows of
spec/30_encoding.md R90, exactly the instruction's own row selects its encoded word.
-/

namespace Sys2Proof.Laws.RowSelects

/-- Exactly the row of `i` selects `encode i`. -/
def Statement (i : Instr) : Prop :=
  ∀ r ∈ opcodeRows, r.selects (encode i) = (r.number == i.rowNumber)

/-- A row with mask 0xF000 selects by the leftmost nibble. -/
theorem selects_F000 (k : Nat) (o : Nibble) (op : Word) :
    OpcodeRow.selects ⟨k, wordNNN o 0, 0xF000⟩ op = (fieldO op == o) := by
  rw [Bool.eq_iff_iff]; simpa [OpcodeRow.selects] using and_F000_eq op o

/-- A row with mask 0xF0FF selects by the leftmost nibble and the low byte. -/
theorem selects_F0FF (k : Nat) (o : Nibble) (kk : Byte) (op : Word) :
    OpcodeRow.selects ⟨k, wordXKK o 0 kk, 0xF0FF⟩ op = (fieldO op == o && fieldKK op == kk) := by
  rw [Bool.eq_iff_iff]; simpa [OpcodeRow.selects] using and_F0FF_eq op o kk

/-- A row with mask 0xF00F selects by the leftmost and the rightmost nibble. -/
theorem selects_F00F (k : Nat) (o n : Nibble) (op : Word) :
    OpcodeRow.selects ⟨k, wordXYN o 0 0 n, 0xF00F⟩ op = (fieldO op == o && fieldN op == n) := by
  rw [Bool.eq_iff_iff]; simpa [OpcodeRow.selects] using and_F00F_eq op o n

/-- A row with mask 0xFFFF selects one word; a word of another leftmost nibble is not 0x00E_. -/
theorem selects_FFFF_false (k : Nat) (p op : Word) (hp : fieldO p = 0) (h : fieldO op ≠ 0) :
    OpcodeRow.selects ⟨k, p, 0xFFFF⟩ op = false := by
  have e : op &&& 0xFFFF = op := and_ones op
  simp only [OpcodeRow.selects, e, beq_eq_false_iff_ne]
  rintro rfl
  exact h hp

/-- The map of R90 with its patterns as fields. -/
theorem opcodeRows_eq : opcodeRows =
    [⟨1, 0x00E0, 0xFFFF⟩, ⟨2, 0x00EE, 0xFFFF⟩, ⟨3, wordNNN 0x1 0, 0xF000⟩, ⟨4, wordNNN 0x2 0, 0xF000⟩, ⟨5, wordNNN 0x3 0, 0xF000⟩,
     ⟨6, wordNNN 0x4 0, 0xF000⟩, ⟨7, wordNNN 0x5 0, 0xF000⟩, ⟨8, wordNNN 0x6 0, 0xF000⟩, ⟨9, wordNNN 0x7 0, 0xF000⟩,
     ⟨10, wordXYN 0x8 0 0 0x0, 0xF00F⟩, ⟨11, wordXYN 0x8 0 0 0x1, 0xF00F⟩, ⟨12, wordXYN 0x8 0 0 0x2, 0xF00F⟩,
     ⟨13, wordXYN 0x8 0 0 0x3, 0xF00F⟩, ⟨14, wordXYN 0x8 0 0 0x4, 0xF00F⟩, ⟨15, wordXYN 0x8 0 0 0x5, 0xF00F⟩,
     ⟨16, wordXYN 0x8 0 0 0x6, 0xF00F⟩, ⟨17, wordXYN 0x8 0 0 0x7, 0xF00F⟩, ⟨18, wordXYN 0x8 0 0 0xE, 0xF00F⟩,
     ⟨19, wordNNN 0x9 0, 0xF000⟩, ⟨20, wordNNN 0xA 0, 0xF000⟩, ⟨21, wordNNN 0xB 0, 0xF000⟩, ⟨22, wordNNN 0xC 0, 0xF000⟩,
     ⟨23, wordNNN 0xD 0, 0xF000⟩, ⟨24, wordXKK 0xE 0 0x9E, 0xF0FF⟩, ⟨25, wordXKK 0xE 0 0xA1, 0xF0FF⟩,
     ⟨26, wordXKK 0xF 0 0x07, 0xF0FF⟩, ⟨27, wordXKK 0xF 0 0x0A, 0xF0FF⟩, ⟨28, wordXKK 0xF 0 0x15, 0xF0FF⟩,
     ⟨29, wordXKK 0xF 0 0x18, 0xF0FF⟩, ⟨30, wordXKK 0xF 0 0x1E, 0xF0FF⟩, ⟨31, wordXKK 0xF 0 0x29, 0xF0FF⟩,
     ⟨32, wordXKK 0xF 0 0x33, 0xF0FF⟩, ⟨33, wordXKK 0xF 0 0x55, 0xF0FF⟩, ⟨34, wordXKK 0xF 0 0x65, 0xF0FF⟩] := by
  decide

/-- The shape of every proof below: the rows of R90 as conditions on the fields of a word whose
leftmost nibble is not 0. -/
theorem of_fields {i : Instr} (h0 : fieldO (encode i) ≠ 0)
    (h : ∀ r ∈ opcodeRows, 3 ≤ r.number → r.selects (encode i) = (r.number == i.rowNumber))
    (h3 : 3 ≤ i.rowNumber) : Statement i := by
  intro r hr
  by_cases hn : 3 ≤ r.number
  · exact h r hr hn
  · have e1 : (1 == i.rowNumber) = false := by simp; omega
    have e2 : (2 == i.rowNumber) = false := by simp; omega
    have e : ∀ q ∈ opcodeRows, 3 ≤ q.number ∨ q = ⟨1, 0x00E0, 0xFFFF⟩ ∨ q = ⟨2, 0x00EE, 0xFFFF⟩ := by
      decide
    rcases e r hr with h' | rfl | rfl
    · exact absurd h' hn
    · rw [e1]; exact selects_FFFF_false 1 _ _ (by decide) h0
    · rw [e2]; exact selects_FFFF_false 2 _ _ (by decide) h0

theorem cls : Statement .cls := by unfold Statement; decide

theorem ret : Statement .ret := by unfold Statement; decide

theorem jp (nnn : Addr) : Statement (.jp nnn) := by
  refine of_fields (by simp [encode]) ?_ (by simp [Instr.rowNumber])
  simp only [opcodeRows_eq, List.forall_mem_cons, selects_F000, selects_F0FF, selects_F00F]
  simp [encode, Instr.rowNumber]

theorem call (nnn : Addr) : Statement (.call nnn) := by
  refine of_fields (by simp [encode]) ?_ (by simp [Instr.rowNumber])
  simp only [opcodeRows_eq, List.forall_mem_cons, selects_F000, selects_F0FF, selects_F00F]
  simp [encode, Instr.rowNumber]

theorem seImm (x : RegIdx) (kk : Byte) : Statement (.seImm x kk) := by
  refine of_fields (by simp [encode]) ?_ (by simp [Instr.rowNumber])
  simp only [opcodeRows_eq, List.forall_mem_cons, selects_F000, selects_F0FF, selects_F00F]
  simp [encode, Instr.rowNumber]

theorem sneImm (x : RegIdx) (kk : Byte) : Statement (.sneImm x kk) := by
  refine of_fields (by simp [encode]) ?_ (by simp [Instr.rowNumber])
  simp only [opcodeRows_eq, List.forall_mem_cons, selects_F000, selects_F0FF, selects_F00F]
  simp [encode, Instr.rowNumber]

theorem seReg (x : RegIdx) (y : RegIdx) : Statement (.seReg x y) := by
  refine of_fields (by simp [encode]) ?_ (by simp [Instr.rowNumber])
  simp only [opcodeRows_eq, List.forall_mem_cons, selects_F000, selects_F0FF, selects_F00F]
  simp [encode, Instr.rowNumber]

theorem ldImm (x : RegIdx) (kk : Byte) : Statement (.ldImm x kk) := by
  refine of_fields (by simp [encode]) ?_ (by simp [Instr.rowNumber])
  simp only [opcodeRows_eq, List.forall_mem_cons, selects_F000, selects_F0FF, selects_F00F]
  simp [encode, Instr.rowNumber]

theorem addImm (x : RegIdx) (kk : Byte) : Statement (.addImm x kk) := by
  refine of_fields (by simp [encode]) ?_ (by simp [Instr.rowNumber])
  simp only [opcodeRows_eq, List.forall_mem_cons, selects_F000, selects_F0FF, selects_F00F]
  simp [encode, Instr.rowNumber]

theorem ldReg (x : RegIdx) (y : RegIdx) : Statement (.ldReg x y) := by
  refine of_fields (by simp [encode]) ?_ (by simp [Instr.rowNumber])
  simp only [opcodeRows_eq, List.forall_mem_cons, selects_F000, selects_F0FF, selects_F00F]
  simp [encode, Instr.rowNumber]

theorem orReg (x : RegIdx) (y : RegIdx) : Statement (.orReg x y) := by
  refine of_fields (by simp [encode]) ?_ (by simp [Instr.rowNumber])
  simp only [opcodeRows_eq, List.forall_mem_cons, selects_F000, selects_F0FF, selects_F00F]
  simp [encode, Instr.rowNumber]

theorem andReg (x : RegIdx) (y : RegIdx) : Statement (.andReg x y) := by
  refine of_fields (by simp [encode]) ?_ (by simp [Instr.rowNumber])
  simp only [opcodeRows_eq, List.forall_mem_cons, selects_F000, selects_F0FF, selects_F00F]
  simp [encode, Instr.rowNumber]

theorem xorReg (x : RegIdx) (y : RegIdx) : Statement (.xorReg x y) := by
  refine of_fields (by simp [encode]) ?_ (by simp [Instr.rowNumber])
  simp only [opcodeRows_eq, List.forall_mem_cons, selects_F000, selects_F0FF, selects_F00F]
  simp [encode, Instr.rowNumber]

theorem addReg (x : RegIdx) (y : RegIdx) : Statement (.addReg x y) := by
  refine of_fields (by simp [encode]) ?_ (by simp [Instr.rowNumber])
  simp only [opcodeRows_eq, List.forall_mem_cons, selects_F000, selects_F0FF, selects_F00F]
  simp [encode, Instr.rowNumber]

theorem subReg (x : RegIdx) (y : RegIdx) : Statement (.subReg x y) := by
  refine of_fields (by simp [encode]) ?_ (by simp [Instr.rowNumber])
  simp only [opcodeRows_eq, List.forall_mem_cons, selects_F000, selects_F0FF, selects_F00F]
  simp [encode, Instr.rowNumber]

theorem shr (x : RegIdx) : Statement (.shr x) := by
  refine of_fields (by simp [encode]) ?_ (by simp [Instr.rowNumber])
  simp only [opcodeRows_eq, List.forall_mem_cons, selects_F000, selects_F0FF, selects_F00F]
  simp [encode, Instr.rowNumber]

theorem subnReg (x : RegIdx) (y : RegIdx) : Statement (.subnReg x y) := by
  refine of_fields (by simp [encode]) ?_ (by simp [Instr.rowNumber])
  simp only [opcodeRows_eq, List.forall_mem_cons, selects_F000, selects_F0FF, selects_F00F]
  simp [encode, Instr.rowNumber]

theorem shl (x : RegIdx) : Statement (.shl x) := by
  refine of_fields (by simp [encode]) ?_ (by simp [Instr.rowNumber])
  simp only [opcodeRows_eq, List.forall_mem_cons, selects_F000, selects_F0FF, selects_F00F]
  simp [encode, Instr.rowNumber]

theorem sneReg (x : RegIdx) (y : RegIdx) : Statement (.sneReg x y) := by
  refine of_fields (by simp [encode]) ?_ (by simp [Instr.rowNumber])
  simp only [opcodeRows_eq, List.forall_mem_cons, selects_F000, selects_F0FF, selects_F00F]
  simp [encode, Instr.rowNumber]

theorem ldI (nnn : Addr) : Statement (.ldI nnn) := by
  refine of_fields (by simp [encode]) ?_ (by simp [Instr.rowNumber])
  simp only [opcodeRows_eq, List.forall_mem_cons, selects_F000, selects_F0FF, selects_F00F]
  simp [encode, Instr.rowNumber]

theorem jpV0 (nnn : Addr) : Statement (.jpV0 nnn) := by
  refine of_fields (by simp [encode]) ?_ (by simp [Instr.rowNumber])
  simp only [opcodeRows_eq, List.forall_mem_cons, selects_F000, selects_F0FF, selects_F00F]
  simp [encode, Instr.rowNumber]

theorem rnd (x : RegIdx) (kk : Byte) : Statement (.rnd x kk) := by
  refine of_fields (by simp [encode]) ?_ (by simp [Instr.rowNumber])
  simp only [opcodeRows_eq, List.forall_mem_cons, selects_F000, selects_F0FF, selects_F00F]
  simp [encode, Instr.rowNumber]

theorem drw (x : RegIdx) (y : RegIdx) (n : Nibble) : Statement (.drw x y n) := by
  refine of_fields (by simp [encode]) ?_ (by simp [Instr.rowNumber])
  simp only [opcodeRows_eq, List.forall_mem_cons, selects_F000, selects_F0FF, selects_F00F]
  simp [encode, Instr.rowNumber]

theorem skp (x : RegIdx) : Statement (.skp x) := by
  refine of_fields (by simp [encode]) ?_ (by simp [Instr.rowNumber])
  simp only [opcodeRows_eq, List.forall_mem_cons, selects_F000, selects_F0FF, selects_F00F]
  simp [encode, Instr.rowNumber]

theorem sknp (x : RegIdx) : Statement (.sknp x) := by
  refine of_fields (by simp [encode]) ?_ (by simp [Instr.rowNumber])
  simp only [opcodeRows_eq, List.forall_mem_cons, selects_F000, selects_F0FF, selects_F00F]
  simp [encode, Instr.rowNumber]

theorem ldVxDT (x : RegIdx) : Statement (.ldVxDT x) := by
  refine of_fields (by simp [encode]) ?_ (by simp [Instr.rowNumber])
  simp only [opcodeRows_eq, List.forall_mem_cons, selects_F000, selects_F0FF, selects_F00F]
  simp [encode, Instr.rowNumber]

theorem ldVxK (x : RegIdx) : Statement (.ldVxK x) := by
  refine of_fields (by simp [encode]) ?_ (by simp [Instr.rowNumber])
  simp only [opcodeRows_eq, List.forall_mem_cons, selects_F000, selects_F0FF, selects_F00F]
  simp [encode, Instr.rowNumber]

theorem ldDTVx (x : RegIdx) : Statement (.ldDTVx x) := by
  refine of_fields (by simp [encode]) ?_ (by simp [Instr.rowNumber])
  simp only [opcodeRows_eq, List.forall_mem_cons, selects_F000, selects_F0FF, selects_F00F]
  simp [encode, Instr.rowNumber]

theorem ldSTVx (x : RegIdx) : Statement (.ldSTVx x) := by
  refine of_fields (by simp [encode]) ?_ (by simp [Instr.rowNumber])
  simp only [opcodeRows_eq, List.forall_mem_cons, selects_F000, selects_F0FF, selects_F00F]
  simp [encode, Instr.rowNumber]

theorem addIVx (x : RegIdx) : Statement (.addIVx x) := by
  refine of_fields (by simp [encode]) ?_ (by simp [Instr.rowNumber])
  simp only [opcodeRows_eq, List.forall_mem_cons, selects_F000, selects_F0FF, selects_F00F]
  simp [encode, Instr.rowNumber]

theorem ldFVx (x : RegIdx) : Statement (.ldFVx x) := by
  refine of_fields (by simp [encode]) ?_ (by simp [Instr.rowNumber])
  simp only [opcodeRows_eq, List.forall_mem_cons, selects_F000, selects_F0FF, selects_F00F]
  simp [encode, Instr.rowNumber]

theorem ldBVx (x : RegIdx) : Statement (.ldBVx x) := by
  refine of_fields (by simp [encode]) ?_ (by simp [Instr.rowNumber])
  simp only [opcodeRows_eq, List.forall_mem_cons, selects_F000, selects_F0FF, selects_F00F]
  simp [encode, Instr.rowNumber]

theorem ldMemVx (x : RegIdx) : Statement (.ldMemVx x) := by
  refine of_fields (by simp [encode]) ?_ (by simp [Instr.rowNumber])
  simp only [opcodeRows_eq, List.forall_mem_cons, selects_F000, selects_F0FF, selects_F00F]
  simp [encode, Instr.rowNumber]

theorem ldVxMem (x : RegIdx) : Statement (.ldVxMem x) := by
  refine of_fields (by simp [encode]) ?_ (by simp [Instr.rowNumber])
  simp only [opcodeRows_eq, List.forall_mem_cons, selects_F000, selects_F0FF, selects_F00F]
  simp [encode, Instr.rowNumber]

end Sys2Proof.Laws.RowSelects
end

