-- ==== Sys2Proof/Laws/Safety.lean ====
section
/-!
SUPPORT. The Boolean checks of WellFormed and Safety as propositions.
-/

namespace Sys2Proof

/-- The constraints on the parameters, each as a proposition (R6). -/
theorem wellFormed_iff (p : Params) :
    p.wellFormed = true ↔
      1 ≤ p.stackDepth ∧ p.stackBase % 2 = 0 ∧ 2 ≤ p.stackBase ∧ p.spMax + 1 ≤ 0xFFF ∧
        p.fontBase + 79 ≤ 0xFFF ∧ 1 ≤ p.timerDivider := by
  simp only [Params.wellFormed, Params.depthOk, Params.baseEven, Params.emptyOk, Params.maxOk,
    Params.fontOk, Params.dividerOk, Bool.and_eq_true, decide_eq_true_eq]
  have e : Config.fontGlyphBytes = 5 := rfl
  rw [e]
  omega

end Sys2Proof

namespace Sys2Proof.Machine

theorem stackOk_iff (s : State) :
    s.stackOk = true ↔ s.sp.toNat = s.cfg.spEmpty ∨
      (s.cfg.stackBase ≤ s.sp.toNat ∧ s.sp.toNat ≤ s.cfg.spMax ∧
        (s.sp.toNat - s.cfg.stackBase) % 2 = 0) := by
  simp only [State.stackOk, Bool.or_eq_true, Bool.and_eq_true, decide_eq_true_eq, and_assoc]

theorem tickOk_iff (s : State) : s.tickOk = true ↔ s.tick < s.cfg.timerDivider := by
  simp only [State.tickOk, decide_eq_true_eq]

theorem headlessOk_iff (s : State) :
    s.headlessOk = true ↔
      (s.cfg.displayAttached = false → s.display = ⟨FrameBuffer.filled false, []⟩) := by
  simp only [State.headlessOk, Bool.or_eq_true, beq_iff_eq]
  cases s.cfg.displayAttached <;> simp

/-- The invariant as a proposition. -/
theorem inv_iff (s : State) :
    s.inv = true ↔ s.cfg.wellFormed = true ∧ Memory.wf s.mem = true ∧ s.stackOk = true ∧
      s.tickOk = true ∧ s.headlessOk = true ∧ s.haltOk = true := by
  simp only [State.inv, Bool.and_eq_true, and_assoc]

/-- A running state is no halted one. -/
theorem haltOk_running {s : State} (h : s.status = .running) : s.haltOk = true := by
  simp only [State.haltOk, h]

theorem stopped_iff (s : State) :
    s.stopped = true ↔ s.status = .running ∧ s.pc.toNat % 2 = 0 ∧ s.pc.toNat ≤ 0xFFE ∧
      readWord s.mem s.pc.toNat = (0x1000 ||| s.pc) := by
  simp only [State.stopped, Bool.and_eq_true, decide_eq_true_eq, beq_iff_eq, and_assoc]

end Sys2Proof.Machine
end

