-- ==== Sys2Proof/Machine/Assembly.lean ====
section
/-!
DEFINITION. The assembly notation of an instruction (spec/30_encoding.md R91, R92): the mnemonics of
R90 with registers `V0`..`VF` and hexadecimal constants. The word an assembler emits for it is
`encode`. It is notation only: no meaning uses it.
-/

namespace Sys2Proof.Machine

/-- One hexadecimal digit. -/
def hexDigit (n : Nibble) : String :=
  match n.toNat with
  | 0 => "0" | 1 => "1" | 2 => "2" | 3 => "3" | 4 => "4" | 5 => "5" | 6 => "6" | 7 => "7"
  | 8 => "8" | 9 => "9" | 10 => "A" | 11 => "B" | 12 => "C" | 13 => "D" | 14 => "E" | _ => "F"

/-- A register's name (R91). -/
def regName (x : RegIdx) : String := "V" ++ hexDigit x

/-- An 8-bit constant. -/
def hexByte (b : Byte) : String :=
  "0x" ++ hexDigit (b.extractLsb' 4 4) ++ hexDigit (b.extractLsb' 0 4)

/-- A 12-bit address. -/
def hexAddr (a : Addr) : String :=
  "0x" ++ hexDigit (a.extractLsb' 8 4) ++ hexDigit (a.extractLsb' 4 4) ++ hexDigit (a.extractLsb' 0 4)

/-- A mnemonic with two operands. -/
def asm2 (mnemonic a b : String) : String := mnemonic ++ " " ++ a ++ ", " ++ b

/-- The assembly line of an instruction (R90, R91). -/
def assemblyLine : Instr → String
  | .cls => "CLS"
  | .ret => "RET"
  | .jp nnn => "JP " ++ hexAddr nnn
  | .call nnn => "CALL " ++ hexAddr nnn
  | .seImm x kk => asm2 "SE" (regName x) (hexByte kk)
  | .sneImm x kk => asm2 "SNE" (regName x) (hexByte kk)
  | .seReg x y => asm2 "SE" (regName x) (regName y)
  | .ldImm x kk => asm2 "LD" (regName x) (hexByte kk)
  | .addImm x kk => asm2 "ADD" (regName x) (hexByte kk)
  | .ldReg x y => asm2 "LD" (regName x) (regName y)
  | .orReg x y => asm2 "OR" (regName x) (regName y)
  | .andReg x y => asm2 "AND" (regName x) (regName y)
  | .xorReg x y => asm2 "XOR" (regName x) (regName y)
  | .addReg x y => asm2 "ADD" (regName x) (regName y)
  | .subReg x y => asm2 "SUB" (regName x) (regName y)
  | .shr x => "SHR " ++ regName x
  | .subnReg x y => asm2 "SUBN" (regName x) (regName y)
  | .shl x => "SHL " ++ regName x
  | .sneReg x y => asm2 "SNE" (regName x) (regName y)
  | .ldI nnn => asm2 "LD" "I" (hexAddr nnn)
  | .jpV0 nnn => asm2 "JP" "V0" (hexAddr nnn)
  | .rnd x kk => asm2 "RND" (regName x) (hexByte kk)
  | .drw x y n => asm2 "DRW" (regName x) (regName y) ++ ", 0x" ++ hexDigit n
  | .skp x => "SKP " ++ regName x
  | .sknp x => "SKNP " ++ regName x
  | .ldVxDT x => asm2 "LD" (regName x) "DT"
  | .ldVxK x => asm2 "LD" (regName x) "K"
  | .ldDTVx x => asm2 "LD" "DT" (regName x)
  | .ldSTVx x => asm2 "LD" "ST" (regName x)
  | .addIVx x => asm2 "ADD" "I" (regName x)
  | .ldFVx x => asm2 "LD" "F" (regName x)
  | .ldBVx x => asm2 "LD" "B" (regName x)
  | .ldMemVx x => asm2 "LD" "[I]" (regName x)
  | .ldVxMem x => asm2 "LD" (regName x) "[I]"

end Sys2Proof.Machine
end

