-- ==== Sys2Proof/Tests/Slice0.lean ====
section
/-!
SUPPORT. Tests: ill-formed terms refused, words of the spec decoded, single steps with the values
of spec/95_test_vectors.md, and for every obligation with hypotheses a witness that meets them.
-/

namespace Sys2Proof.Tests

open Sys2Proof Sys2Proof.Machine

/-! ### Helpers: a small start state, and what is looked at of an outcome -/

/-- The start state of every vector: reset, with the word at PC (spec/95, conventions). -/
def start (w : Nat) (s : State := State.reset) : State := s.withFetchWord 16 w

/-- Reset with some V registers. -/
def regs (vs : List (RegIdx × Byte)) (s : State := State.reset) : State :=
  vs.foldl (fun t p => t.setV p.1 p.2) s

/-- Reset with bytes in memory. -/
def bytes (a : Nat) (bs : List Byte) (s : State := State.reset) : State :=
  { s with mem := writeBytes s.mem a bs }

/-- Reset without a display. -/
def headless : State := State.construct { displayAttached := false }

/-- Reset with a keyboard answer placed. -/
def key (k : Option Key) (s : State := State.reset) : State :=
  { s with inputs := ⟨[k], 0, [], 0⟩ }

/-- The outcome is a next state for which the check holds. -/
def gives (r : Result) (check : State → Bool) : Bool :=
  match r with
  | .next t => check t
  | .fault _ => false
  | .refused _ => false

/-- The step completes at this PC, running, with these registers. -/
def completes (s : State) (pc : Word) (vs : List (RegIdx × Byte) := []) : Bool :=
  gives (step s) fun t =>
    t.status == .running && t.pc == pc && vs.all fun p => t.getV p.1 == p.2

/-- The step takes this error and changes neither PC, SP, memory nor the registers. -/
def halts (s : State) (e : FatalError) : Bool :=
  gives (step s) fun t =>
    t.status == .halted e && t.pc == s.pc && t.sp == s.sp && t.mem == s.mem && t.v == s.v

/-! ### WellFormed: the defaults pass, and a term that fails each check is refused (R6) -/

theorem test_wellFormed_default : Params.wellFormed {} = true := by decide

theorem test_refuses_depth_zero : Params.wellFormed { stackDepth := 0 } = false := by decide

theorem test_refuses_odd_base : Params.wellFormed { stackBase := 0x0EA1 } = false := by decide

theorem test_refuses_base_zero : Params.wellFormed { stackBase := 0 } = false := by decide

theorem test_refuses_stack_past_memory :
    Params.wellFormed { stackBase := 0x0FFE, stackDepth := 2 } = false := by decide

theorem test_accepts_stack_at_top :
    Params.wellFormed { stackBase := 0x0FFE, stackDepth := 1 } = true := by decide

theorem test_refuses_font_past_memory :
    Params.wellFormed { fontBase := 0x0FB1 } = false := by decide

theorem test_accepts_font_at_top : Params.wellFormed { fontBase := 0x0FB0 } = true := by decide

theorem test_refuses_divider_zero : Params.wellFormed { timerDivider := 0 } = false := by decide

/-! ### Memory's canonical form -/

theorem test_memory_form_refuses :
    Memory.wf [(0x201, 1), (0x200, 2)] = false ∧ Memory.wf [(0x200, 1), (0x200, 2)] = false ∧
    Memory.wf [(0x200, 0)] = false ∧ Memory.wf [(0x1000, 1)] = false ∧
    Memory.wf [(0x200, 1), (0xFFF, 2)] = true := by decide

theorem test_writing_zero_removes : writeMem 0x300 0 (writeMem 0x300 9 []) = [] := by decide

/-! ### Decoding: one word of each constructor, from the encodings of R90 -/

theorem test_decode_control :
    decode 0x00E0 = some .cls ∧ decode 0x00EE = some .ret ∧ decode 0x1234 = some (.jp 0x234) ∧
    decode 0x2210 = some (.call 0x210) ∧ decode 0x3310 = some (.seImm 3 0x10) ∧
    decode 0x4311 = some (.sneImm 3 0x11) ∧ decode 0x5120 = some (.seReg 1 2) ∧
    decode 0x9120 = some (.sneReg 1 2) ∧ decode 0xBFFF = some (.jpV0 0xFFF) := by decide

theorem test_decode_alu :
    decode 0x6A7B = some (.ldImm 0xA 0x7B) ∧ decode 0x70FF = some (.addImm 0 0xFF) ∧
    decode 0x8AB0 = some (.ldReg 0xA 0xB) ∧ decode 0x8AB1 = some (.orReg 0xA 0xB) ∧
    decode 0x8AB2 = some (.andReg 0xA 0xB) ∧ decode 0x8AB3 = some (.xorReg 0xA 0xB) ∧
    decode 0x8F14 = some (.addReg 0xF 1) ∧ decode 0x8F15 = some (.subReg 0xF 1) ∧
    decode 0x80F6 = some (.shr 0) ∧ decode 0x8AB7 = some (.subnReg 0xA 0xB) ∧
    decode 0x8FFE = some (.shl 0xF) ∧ decode 0xC30F = some (.rnd 3 0x0F) := by decide

theorem test_decode_memory :
    decode 0xA300 = some (.ldI 0x300) ∧ decode 0xF21E = some (.addIVx 2) ∧
    decode 0xF529 = some (.ldFVx 5) ∧ decode 0xFA33 = some (.ldBVx 0xA) ∧
    decode 0xF255 = some (.ldMemVx 2) ∧ decode 0xFF65 = some (.ldVxMem 0xF) := by decide

theorem test_decode_devices :
    decode 0xF307 = some (.ldVxDT 3) ∧ decode 0xF015 = some (.ldDTVx 0) ∧
    decode 0xF118 = some (.ldSTVx 1) ∧ decode 0xDABC = some (.drw 0xA 0xB 0xC) ∧
    decode 0xE49E = some (.skp 4) ∧ decode 0xE4A1 = some (.sknp 4) ∧
    decode 0xF30A = some (.ldVxK 3) := by decide

/-- The ignored bits (R85, R179, R181): vectors 1.13 and 2.17. -/
theorem test_decode_ignored_bits :
    decode 0x512F = decode 0x5120 ∧ decode 0x912F = decode 0x9120 ∧
    decode 0x8A56 = decode 0x8A06 ∧ decode 0x8A5E = decode 0x8A0E := by decide

/-- Vectors 7.1 to 7.6. -/
theorem test_decode_illegal :
    decode 0x0000 = none ∧ decode 0x0123 = none ∧ decode 0x00E1 = none ∧ decode 0x8008 = none ∧
    decode 0xE49F = none ∧ decode 0xF000 = none := by decide

/-- A word's bytes, the more significant first (R51); other bytes follow. -/
theorem test_decode_bytes :
    decodeBytes [0x6A, 0x7B, 0x12] = some (.ldImm 0xA 0x7B, [0x12]) ∧ decodeBytes [0x6A] = none := by
  decide

/-- Words written out from R90, with 0 in the ignored y nibble of SHR and SHL (R91 for 5xy_). -/
theorem test_encode_words :
    encode (.sneReg 1 2) = 0x9120 ∧ encode (.drw 0xA 0xB 0xC) = 0xDABC ∧ encode (.shr 7) = 0x8706 ∧
    encode (.ldVxMem 0xF) = 0xFF65 := by decide

/-- The table's numbering: bit 0 is the least significant bit of the word. -/
theorem test_table_word :
    decodeTableWord 16 0x6A7B = some (.ldImm 0xA 0x7B) ∧ decodeTableWord 16 0x0000 = none := by
  decide

/-- Every row's pattern is decoded to that row, and run as the first instruction after reset. -/
theorem test_table_rows_decode :
    (opcodeRows.all fun r =>
      ((decodeTableWord 16 r.pattern.toNat).map Instr.rowNumber) == some r.number) = true := by
  decide

theorem test_table_rows_run :
    (opcodeRows.all fun r =>
      decide ((start r.pattern.toNat).fetch.toOption.map Instr.rowNumber = some r.number) &&
        gives (step (start r.pattern.toNat)) fun _ => true) = true := by
  decide

/-- Assembly notation: lines of programs P1 to P3 of spec/95. -/
theorem test_assembly :
    assemblyLine (.ldImm 0 0x05) = "LD V0, 0x05" ∧ assemblyLine (.jp 0x204) = "JP 0x204" ∧
    assemblyLine (.ldVxMem 2) = "LD V2, [I]" ∧ assemblyLine (.ldI 0x300) = "LD I, 0x300" := by
  decide

/-! ### Family 1: control flow -/

/-- Vectors 1.1 and 1.2. -/
theorem test_ret :
    completes (start 0x00EE (bytes 0x0EA0 [0x02, 0x06] { State.reset with sp := 0x0EA0 })) 0x206 =
      true ∧
    halts (start 0x00EE) (.stackUnderflow 0x200 0x0E9E) = true := by decide

/-- Vector 1.1: SP after RET. -/
theorem test_ret_sp :
    gives (step (start 0x00EE (bytes 0x0EA0 [0x02, 0x06] { State.reset with sp := 0x0EA0 })))
      (fun t => t.sp == 0x0E9E && readMem t.mem 0x0EA1 == 0x06) = true := by decide

/-- Vectors 1.3 and 1.20. -/
theorem test_jp :
    completes (start 0x1234) 0x234 = true ∧
    completes (start 0x1FFE { State.reset with pc := 0xFFE }) 0xFFE = true := by decide

/-- Vector 1.5. -/
theorem test_call :
    gives (step (start 0x2210 { State.reset with pc := 0x204 })) (fun t =>
      t.pc == 0x210 && t.sp == 0x0EA0 && readMem t.mem 0x0EA0 == 2 && readMem t.mem 0x0EA1 == 6) =
      true := by decide

/-- Vectors 1.6 and 1.7: the last entry of the stack, and one too many. -/
theorem test_call_full :
    completes (start 0x2300 { State.reset with sp := 0x0EBC }) 0x300 = true ∧
    halts (start 0x2300 { State.reset with sp := 0x0EBE }) (.stackOverflow 0x200 0x0EBE) = true := by
  decide

/-- Vectors 1.8 and 1.9. -/
theorem test_seImm :
    completes (start 0x3310 (regs [(3, 0x10)])) 0x204 = true ∧
    completes (start 0x3311 (regs [(3, 0x10)])) 0x202 = true := by decide

/-- Vectors 1.10 and 1.11. -/
theorem test_sneImm :
    completes (start 0x4311 (regs [(3, 0x10)])) 0x204 = true ∧
    completes (start 0x4310 (regs [(3, 0x10)])) 0x202 = true := by decide

/-- Vectors 1.13 and 1.14. -/
theorem test_seReg :
    completes (start 0x512F (regs [(1, 7), (2, 7)])) 0x204 = true ∧
    completes (start 0x5120 (regs [(1, 7), (2, 8)])) 0x202 = true := by decide

/-- Vectors 1.15 and 1.16. -/
theorem test_sneReg :
    completes (start 0x9120 (regs [(1, 7), (2, 8)])) 0x204 = true ∧
    completes (start 0x9110 (regs [(1, 7)])) 0x202 = true := by decide

/-- Vectors 1.18 and 1.19. -/
theorem test_jpV0 :
    completes (start 0xB300 (regs [(0, 0x04)])) 0x304 = true ∧
    completes (start 0xBFFF (regs [(0, 0xFF)])) 0x10FE = true := by decide

/-- Vector 1.17: a skip to the end of memory completes. -/
theorem test_skip_to_end :
    completes (start 0x3000 { State.reset with pc := 0xFFC }) 0x1000 = true := by decide

/-! ### Family 2: registers and arithmetic -/

/-- Vector 2.1. -/
theorem test_ldImm : completes (start 0x6A7B) 0x202 [(0xA, 0x7B)] = true := by decide

/-- Vectors 2.2 and 2.3. -/
theorem test_addImm :
    completes (start 0x7001 (regs [(0, 0xFF), (0xF, 0x55)])) 0x202 [(0, 0), (0xF, 0x55)] = true ∧
    completes (start 0x70FF (regs [(0, 5)])) 0x202 [(0, 4)] = true := by decide

/-- Vector 2.4. -/
theorem test_ldReg : completes (start 0x8010 (regs [(1, 0x33)])) 0x202 [(0, 0x33)] = true := by decide

/-- Vector 2.5. -/
theorem test_orReg :
    completes (start 0x8011 (regs [(0, 0xF0), (1, 0x0C), (0xF, 0x77)])) 0x202
      [(0, 0xFC), (0xF, 0x77)] = true := by decide

/-- Vector 2.6. -/
theorem test_andReg :
    completes (start 0x8012 (regs [(0, 0xF0), (1, 0x3C), (0xF, 0x77)])) 0x202
      [(0, 0x30), (0xF, 0x77)] = true := by decide

/-- Vectors 2.7 and 2.8. -/
theorem test_xorReg :
    completes (start 0x8013 (regs [(0, 0xF0), (1, 0x3C), (0xF, 0x77)])) 0x202
      [(0, 0xCC), (0xF, 0x77)] = true ∧
    completes (start 0x8003 (regs [(0, 0xAB)])) 0x202 [(0, 0)] = true := by decide

/-- Example E2 and vector 2.12. -/
theorem test_addReg :
    completes (start 0x8014 (regs [(0, 250), (1, 10)])) 0x202 [(0, 4), (0xF, 1)] = true ∧
    completes (start 0x8F14 (regs [(0xF, 0xF0), (1, 0x20)])) 0x202 [(0xF, 0x10)] = true := by decide

/-- Vectors 2.11 and 2.13: the old VF is overwritten, and read as an operand first. -/
theorem test_addReg_flag :
    completes (start 0x8014 (regs [(0, 100), (1, 50), (0xF, 1)])) 0x202 [(0, 0x96), (0xF, 0)] = true ∧
    completes (start 0x80F4 (regs [(0, 1), (0xF, 0xFF)])) 0x202 [(0, 0), (0xF, 1)] = true := by decide

/-- Example E3 and vector 2.16. -/
theorem test_subReg :
    completes (start 0x8015 (regs [(0, 100), (1, 110)])) 0x202 [(0, 246), (0xF, 0)] = true ∧
    completes (start 0x8F15 (regs [(0xF, 5), (1, 7)])) 0x202 [(0xF, 0xFE)] = true := by decide

/-- Vectors 2.14 and 2.15: equal operands. -/
theorem test_subReg_equal :
    completes (start 0x8005 (regs [(0, 9)])) 0x202 [(0, 0), (0xF, 1)] = true ∧
    completes (start 0x8FF5 (regs [(0xF, 9)])) 0x202 [(0xF, 0)] = true := by decide

/-- Vectors 2.17 and 2.18. -/
theorem test_shr :
    completes (start 0x80F6 (regs [(0, 0x80), (0xF, 1)])) 0x202 [(0, 0x40), (0xF, 0)] = true ∧
    completes (start 0x8F06 (regs [(0xF, 3)])) 0x202 [(0xF, 1)] = true := by decide

/-- Vectors 2.19 and 2.20. -/
theorem test_subnReg :
    completes (start 0x8017 (regs [(0, 10), (1, 30)])) 0x202 [(0, 20), (0xF, 1)] = true ∧
    completes (start 0x8017 (regs [(0, 30), (1, 10)])) 0x202 [(0, 236), (0xF, 0)] = true := by decide

/-- Vectors 2.21 and 2.23. -/
theorem test_shl :
    completes (start 0x800E (regs [(0, 0xC1)])) 0x202 [(0, 0x82), (0xF, 1)] = true ∧
    completes (start 0x8FFE (regs [(0xF, 0x80)])) 0x202 [(0xF, 0)] = true := by decide

/-- Vector 2.24. -/
theorem test_rnd : completes (start 0xC30F) 0x202 [(3, 0x0F)] = true := by decide

/-- Vector 2.26, the random byte placed. -/
theorem test_rnd_placed :
    completes (start 0xC3F0 { State.construct { deterministic := false } with
      inputs := ⟨[], 0, [0x5A], 0⟩ }) 0x202 [(3, 0x50)] = true := by decide

/-! ### Family 3: the address register and memory -/

/-- Vector 3.1. -/
theorem test_ldI : gives (step (start 0xA300)) (fun t => t.i == 0x300) = true := by decide

/-- Vectors 3.3 and 3.4. -/
theorem test_addIVx :
    gives (step (start 0xF01E (regs [(0, 1)] { State.reset with i := 0xFFFF })))
      (fun t => t.i == 0 && t.getV 0xF == 0) = true ∧
    gives (step (start 0xF01E (regs [(0, 1)] { State.reset with i := 0x0FFF })))
      (fun t => t.i == 0x1000) = true := by decide

/-- Vectors 3.5 and 3.6. -/
theorem test_ldFVx :
    gives (step (start 0xF529 (regs [(5, 0x0A)]))) (fun t => t.i == 0x032) = true ∧
    halts (start 0xF529 (regs [(5, 0x10)])) (.fontDigitRange 0x200 0x10) = true := by decide

/-- Vectors 3.7 and 3.10, and an I above 0xFFF by R53. -/
theorem test_ldBVx :
    gives (step (start 0xF033 (regs [(0, 123)] { State.reset with i := 0x300 })))
      (fun t => readBytes t.mem 0x300 3 == [1, 2, 3] && t.i == 0x300) = true ∧
    halts (start 0xF033 (regs [(0, 1)] { State.reset with i := 0xFFE }))
      (.memoryBounds 0x200 0x1000) = true ∧
    halts (start 0xF033 { State.reset with i := 0xFFFE }) (.memoryBounds 0x200 0xFFFE) = true := by
  decide

/-- Vectors 3.8 and 3.9: 255, and 0 over bytes that hold something. -/
theorem test_ldBVx_values :
    gives (step (start 0xF033 (regs [(0, 255)] { State.reset with i := 0x300 })))
      (fun t => readBytes t.mem 0x300 3 == [2, 5, 5]) = true ∧
    gives (step (start 0xF033 (bytes 0x300 [9, 9, 9] { State.reset with i := 0x300 })))
      (fun t => readBytes t.mem 0x300 3 == [0, 0, 0]) = true := by decide

/-- Vectors 3.11 and 3.13. -/
theorem test_ldMemVx :
    gives (step (start 0xF255 (regs [(0, 1), (1, 2), (2, 3)] { State.reset with i := 0x400 })))
      (fun t => readBytes t.mem 0x400 4 == [1, 2, 3, 0] && t.i == 0x400) = true ∧
    halts (start 0xF155 { State.reset with i := 0xFFF }) (.memoryBounds 0x200 0x1000) = true := by
  decide

/-- Vector 3.12: one byte at the top of memory. -/
theorem test_ldMemVx_top :
    gives (step (start 0xF055 (regs [(0, 0xAA)] { State.reset with i := 0xFFF })))
      (fun t => readMem t.mem 0xFFF == 0xAA) = true := by decide

/-- Vectors 3.14 and 3.15. -/
theorem test_ldVxMem :
    completes (start 0xF265 (bytes 0x300 [1, 2, 3, 4] { State.reset with i := 0x300 })) 0x202
      [(0, 1), (1, 2), (2, 3), (3, 0)] = true ∧
    completes (start 0xFF65 (bytes 0x30F [0xEE] { State.reset with i := 0x300 })) 0x202
      [(0xE, 0), (0xF, 0xEE)] = true := by decide

/-! ### Family 4: timers -/

/-- Vector 4.1. -/
theorem test_ldVxDT :
    completes (start 0xF307 { State.reset with dt := 0x2A }) 0x202 [(3, 0x2A)] = true := by decide

/-- Vector 4.2. -/
theorem test_ldDTVx :
    gives (step (start 0xF015 (regs [(0, 3)]))) (fun t => t.dt == 3 && t.st == 0) = true := by decide

/-- Vector 4.3. -/
theorem test_ldSTVx :
    gives (step (start 0xF118 (regs [(1, 0x10)]))) (fun t => t.st == 0x10 && t.dt == 0) = true := by
  decide

/-- Vectors 4.4 and 4.5: the floor at zero. -/
theorem test_tickTimers :
    ({ State.reset with dt := 5 } : State).tickTimersPort.dt = 4 ∧
    ({ State.reset with dt := 5 } : State).tickTimersPort.st = 0 ∧
    ({ State.reset with st := 1 } : State).tickTimersPort.st = 0 := by decide

/-- Vector 4.6: the eighth completed step ticks the timers. -/
theorem test_eighth_step :
    gives (step (start 0x6000 { State.reset with tick := 7, dt := 2 }))
      (fun t => t.dt == 1 && t.tick == 0) = true ∧
    gives (step (start 0x6000 { State.reset with tick := 6, dt := 2 }))
      (fun t => t.dt == 2 && t.tick == 7) = true := by decide

/-- Vectors 4.7 and 4.8: a stall and an error count nothing. -/
theorem test_no_count :
    gives (step (start 0xF30A (key none { State.reset with tick := 7, dt := 2 })))
      (fun t => t.dt == 2 && t.tick == 7) = true ∧
    gives (step (start 0x8008 { State.reset with tick := 7, dt := 2 }))
      (fun t => t.dt == 2 && t.tick == 7 && t.status == .halted (.decodeError 0x8008 0x200)) =
      true := by decide

/-! ### Family 5: display -/

/-- The pixels of a display that are on, column by column. -/
def on (d : Display) : List (Nat × Nat) :=
  (List.finRange 64).flatMap fun px =>
    ((List.finRange 32).filter fun py => d.getPixel px py).map fun py => (px.val, py.val)

/-- Vectors 5.1 and 5.3. -/
theorem test_cls :
    gives (step (start 0x00E0 { State.reset with display := State.reset.display.drawPixel 3 4 true }))
      (fun t => on t.display == [] && t.display.calls.count .present == 1) = true ∧
    halts (start 0x00E0 headless) (.configurationError 0x00E0 0x200) = true := by decide

/-- The start of vector 5.4. -/
def sprite : State := regs [(0, 62), (1, 31)] (bytes 0x210 [0xC0, 0x81] { State.reset with i := 0x210 })

/-- Vector 5.4: the sprite wraps in both directions. -/
theorem test_drw :
    gives (step (start 0xD012 sprite)) (fun t =>
      on t.display == [(5, 0), (62, 0), (62, 31), (63, 31)] && t.getV 0xF == 0 &&
        t.display.calls.count .present == 1) = true := by decide

/-- Vectors 5.5 (the same sprite again: a collision, and the picture is clear) and 5.10. -/
theorem test_drw_again :
    gives (step (start 0xD012 sprite)) (fun u => gives (exec (.drw 0 1 2) u) fun t =>
      on t.display == [] && t.getV 0xF == 1) = true ∧
    gives (step (start 0xDFF1 (regs [(0xF, 3)] (bytes 0x300 [0x80] { State.reset with i := 0x300 }))))
      (fun t => on t.display == [(3, 3)] && t.getV 0xF == 0) = true := by decide

/-! ### Family 6: keyboard -/

/-- Vectors 6.1 to 6.3: the whole 8-bit register is compared. -/
theorem test_skp :
    completes (start 0xE49E (key (some 7) (regs [(4, 7)]))) 0x204 = true ∧
    completes (start 0xE49E (key none (regs [(4, 7)]))) 0x202 = true ∧
    completes (start 0xE49E (key (some 7) (regs [(4, 0x17)]))) 0x202 = true := by decide

/-- Vectors 6.4 to 6.6. -/
theorem test_sknp :
    completes (start 0xE4A1 (key none (regs [(4, 7)]))) 0x204 = true ∧
    completes (start 0xE4A1 (key (some 7) (regs [(4, 7)]))) 0x202 = true ∧
    completes (start 0xE4A1 (key (some 2) (regs [(4, 7)]))) 0x204 = true := by decide

/-- Vectors 6.7 and 6.9. -/
theorem test_ldVxK :
    completes (start 0xF30A (key (some 0xB))) 0x202 [(3, 0x0B)] = true ∧
    completes (start 0xFF0A (key (some 5) (regs [(0xF, 1)]))) 0x202 [(0xF, 5)] = true := by decide

/-- Vectors 6.8 and 6.10: a stall, and headless no stall. -/
theorem test_ldVxK_waits :
    step (start 0xF30A (key none)) = .next { start 0xF30A (key none) with inputs := ⟨[], 0, [], 0⟩ } ∧
    halts (start 0xF30A headless) (.configurationError 0xF30A 0x200) = true := by
  exact ⟨rfl, by decide⟩

/-! ### Family 7: fetch and errors -/

/-- Vectors 7.1, 7.7 and 7.8. -/
theorem test_fetch_errors :
    halts State.reset (.decodeError 0x0000 0x200) = true ∧
    halts { State.reset with pc := 0x201 } (.misalignedFetch 0x201) = true ∧
    halts { State.reset with pc := 0x1000 } (.memoryBounds 0x1000 0x1000) = true := by decide

/-- Vectors 7.9 and 7.10: alignment before bounds, decoding before configuration. -/
theorem test_error_priority :
    halts { State.reset with pc := 0x1001 } (.misalignedFetch 0x1001) = true ∧
    halts (start 0xE00A headless) (.decodeError 0xE00A 0x200) = true := by decide

/-- Vectors 7.11 and 7.12: no step when halted; a load that does not fit, and one that just does. -/
theorem test_halted_and_load :
    step { State.reset with status := .halted (.misalignedFetch 1) } =
      .fault (.haltedMachine (.misalignedFetch 1)) ∧
    (State.reset.load (some (List.replicate 10 7)) 0xFFA).status =
      .halted (.loadError .doesNotFit) ∧
    (State.reset.load (some (List.replicate 10 7)) 0xFFA).mem = [] ∧
    (State.reset.load (some [1, 2]) 0xFFE).mem = [(0xFFE, 1), (0xFFF, 2)] := by
  exact ⟨rfl, rfl, rfl, rfl⟩

/-- R300: the codes of the eight errors. -/
theorem test_error_codes :
    [FatalError.decodeError 0 0, .configurationError 0 0, .stackOverflow 0 0, .stackUnderflow 0 0,
      .loadError .unreadable, .memoryBounds 0 0, .misalignedFetch 0, .fontDigitRange 0 0].map
      FatalError.code = [1, 2, 3, 4, 5, 6, 7, 8] := by decide

/-- A spin is a stopped state, the end of a run (R348); a halted state is none. -/
theorem test_run_end :
    ((runEnd 1 (start 0x1200)).map State.pc) = some 0x200 ∧
    runEnd 3 State.reset = none := by decide

/-! ### Witnesses: states and operands that meet an obligation's hypotheses, clause by clause -/

theorem witness_FullWordAndKeySkipStages :
    (fieldO 0xE49E = 0xE ∧ fieldKK 0xE49E = 0x9E) ∧ fieldO 0xE4A1 = 0xE ∧ fieldKK 0xE4A1 = 0xA1 := by
  decide

theorem witness_SinglePurposeNibbleTable :
    [0x1234, 0x2210, 0x3310, 0x4311, 0x512F, 0x6A7B, 0x70FF, 0x912F, 0xA300, 0xBFFF, 0xC30F,
      0xDABC].map fieldO = [1, 2, 3, 4, 5, 6, 7, 9, 0xA, 0xB, 0xC, 0xD] := by decide

theorem witness_EightTable :
    ([0x8010, 0x8011, 0x8012, 0x8013, 0x8014, 0x8015, 0x80F6, 0x8017, 0x8FFE, 0x8008, 0x800F].map
      fun w => (fieldO w, fieldN w)) =
      [(8, 0), (8, 1), (8, 2), (8, 3), (8, 4), (8, 5), (8, 6), (8, 7), (8, 0xE), (8, 8), (8, 0xF)] :=
  by decide

theorem witness_FTable :
    ([0xF307, 0xF30A, 0xF015, 0xF118, 0xF21E, 0xF529, 0xFA33, 0xF255, 0xFF65, 0xF000, 0xF0FF].map
      fun w => (fieldO w, fieldKK w)) =
      [(0xF, 0x07), (0xF, 0x0A), (0xF, 0x15), (0xF, 0x18), (0xF, 0x1E), (0xF, 0x29), (0xF, 0x33),
        (0xF, 0x55), (0xF, 0x65), (0xF, 0x00), (0xF, 0xFF)] := by decide

/-- A running state at the last even address, with an illegal word there. -/
theorem witness_IllegalWordsAreDecodeErrors :
    let s := start 0x8008 { State.reset with pc := 0xFFE }
    s.status = .running ∧ s.pc.toNat % 2 = 0 ∧ s.pc.toNat ≤ 0xFFE ∧
      decode (readWord s.mem s.pc.toNat) = none := by decide

theorem witness_OpcodeMapDecidesTheRow :
    ∃ r ∈ opcodeRows, (0xF265 : Word) &&& r.mask = r.pattern ∧ r.number = 34 := by decide

theorem witness_ConstructionLeavesTheResetValues :
    State.reset = State.construct {} ∧ headless = State.construct { displayAttached := false } :=
  ⟨rfl, rfl⟩

/-- Parameters at the edge of what is well formed: the stack and the font end at 0xFFF. -/
theorem witness_InvariantAtConstruction :
    Params.wellFormed { stackBase := 0x0FE0, stackDepth := 16, fontBase := 0x0FB0, timerDivider := 1 }
      = true ∧ headless.cfg.wellFormed = true := by decide

/-- An image that ends at 0xFFF, and one that ends a byte beyond. -/
theorem witness_LoadPortCopiesOrHalts :
    State.reset.status = .running ∧ Memory.wf State.reset.mem = true ∧
    4096 < 0xFFE + [(1 : Byte), 2, 3].length ∧ 0xFFE + [(1 : Byte), 2].length ≤ 4096 ∧
    [(1 : Byte), 2][1]? = some 2 := by decide

/-- A font and a program that both end at 0xFFF, and a font byte the program does not cover. -/
theorem witness_BootPlacesFontAndProgram :
    0x0FB0 + (List.replicate 80 (1 : Byte)).length ≤ 4096 ∧
    0x200 + (List.replicate 3584 (2 : Byte)).length ≤ 4096 ∧
    (List.replicate 80 (1 : Byte))[79]? = some 1 ∧ [(0x12 : Byte), 0x00][0]? = some 0x12 ∧
    0x200 + [(0x12 : Byte), 0x00].length ≤ 0x0FB0 + 79 ∧ 0x000 + 79 < 0x200 := by
  refine ⟨by decide, by rw [List.length_replicate], rfl, rfl, by decide, by decide⟩

/-- An execution that completes, one that stalls and one that halts. -/
theorem witness_StepRunsTheDecodedInstruction :
    (let s := start 0x6A7B
     s.status = .running ∧ s.pc.toNat % 2 = 0 ∧ s.pc.toNat ≤ 0xFFE ∧
       decode (readWord s.mem s.pc.toNat) = some (.ldImm 0xA 0x7B) ∧
       s.stalls (.ldImm 0xA 0x7B) = false ∧
       ∃ t, exec (.ldImm 0xA 0x7B) s = .next t ∧ t.status = .running) ∧
    (let s := start 0xF30A (key none)
     decode (readWord s.mem s.pc.toNat) = some (.ldVxK 3) ∧ s.stalls (.ldVxK 3) = true ∧
       ∃ t, exec (.ldVxK 3) s = .next t ∧ t.status = .running) ∧
    let s := start 0x00EE
    decode (readWord s.mem s.pc.toNat) = some .ret ∧
      ∃ t, exec .ret s = .next t ∧ t.status = .halted (.stackUnderflow 0x200 0x0E9E) := by
  exact ⟨⟨rfl, by decide, by decide, by decide, rfl, _, rfl, rfl⟩,
    ⟨by decide, rfl, _, rfl, rfl⟩, by decide, _, rfl, rfl⟩

theorem witness_HaltedMachineDoesNothing :
    ({ State.reset with status := .halted (.misalignedFetch 1) } : State).status =
      .halted (.misalignedFetch 1) := rfl

/-- The least odd and the least even address that cannot be fetched from. -/
theorem witness_BadFetchAddressesHalt :
    State.reset.status = .running ∧ (0x0001 : Word).toNat % 2 = 1 ∧ (0x1001 : Word).toNat % 2 = 1 ∧
    (0x1000 : Word).toNat % 2 = 0 ∧ 0xFFE < (0x1000 : Word).toNat := by decide

theorem witness_TimersCountDownToZero : State.reset.status = .running := rfl

theorem witness_RunningMachineAlwaysSteps : State.reset.status = .running := rfl

/-- An execution that raises, and a step that does. -/
theorem witness_ErrorsArePrecise :
    (start 0x00EE).status = .running ∧
    gives (exec .ret (start 0x00EE)) (fun t => t.status != .running) = true ∧
    gives (step (start 0x00EE)) (fun t => t.status != .running) = true := by decide

/-- A state that meets the invariant for each of the seven errors a step can raise, and for each of
the five ways to raise `MemoryBounds`. -/
theorem witness_EachErrorHasItsCause :
    ([{ State.reset with pc := 0x201 }, start 0x8008, start 0x00E0 headless,
      start 0x2300 { State.reset with sp := 0x0EBE }, start 0x00EE, { State.reset with pc := 0x1000 },
      start 0xF033 { State.reset with i := 0xFFE }, start 0xFF55 { State.reset with i := 0xFF1 },
      start 0xF165 { State.reset with i := 0xFFF }, start 0xD002 { State.reset with i := 0xFFF },
      start 0xF529 (regs [(5, 0x10)])].map
      fun s => (s.inv, match step s with
        | .next t => (match t.status with | .halted e => e.code | .running => 0)
        | _ => 0)) =
      [(true, 7), (true, 1), (true, 2), (true, 3), (true, 4), (true, 6), (true, 6), (true, 6),
        (true, 6), (true, 6), (true, 8)] := by
  decide

/-- A state that meets the invariant and steps, at the last step of a tick. -/
theorem witness_EveryStepKeepsTheInvariant :
    (start 0x6A7B { State.reset with tick := 7 }).inv = true ∧
    ∃ t, step (start 0x6A7B { State.reset with tick := 7 }) = .next t := by
  exact ⟨by decide, _, rfl⟩

theorem witness_HeadlessDisplayInstructionsHalt :
    headless.cfg.displayAttached = false ∧ Instr.usesDisplay .cls = true ∧
    decode 0x00E0 = some .cls ∧ Instr.usesDisplay (.ldImm 0xA 0x7B) = false := by decide

/-- A plain instruction, and a skip. -/
theorem witness_NextPcIsOneOrTwoInstructionsOn :
    (∃ t, exec (.ldImm 0xA 0x7B) State.reset = .next t ∧ State.reset.status = .running ∧
      t.status = .running ∧ Instr.isTransfer (.ldImm 0xA 0x7B) = false ∧
      State.reset.stalls (.ldImm 0xA 0x7B) = false) ∧
    ∃ t, exec (.seImm 0 0) State.reset = .next t ∧ t.status = .running ∧
      Instr.isTransfer (.seImm 0 0) = false ∧ t.pc = 0x204 := by
  exact ⟨⟨_, rfl, rfl, rfl, by decide, rfl⟩, _, rfl, rfl, by decide, by decide⟩

/-- A step that completes, one that stalls and one that raises. -/
theorem witness_OnlyCompletedStepsCount :
    (let s := start 0x6A7B
     s.status = .running ∧ s.fetch = .ok (.ldImm 0xA 0x7B) ∧ s.stalls (.ldImm 0xA 0x7B) = false ∧
       ∃ t, step s = .next t ∧ t.status = .running) ∧
    (let s := start 0xF30A (key none)
     s.fetch = .ok (.ldVxK 3) ∧ s.stalls (.ldVxK 3) = true ∧ ∃ t, step s = .next t) ∧
    let s := start 0x00EE
    s.fetch = .ok .ret ∧ ∃ t, step s = .next t ∧ t.status = .halted (.stackUnderflow 0x200 0x0E9E) := by
  exact ⟨⟨rfl, rfl, rfl, _, rfl, rfl⟩, ⟨rfl, rfl, _, rfl⟩, rfl, _, rfl, rfl⟩

theorem witness_TimersOnlyTickDown :
    let s := start 0x6A7B { State.reset with tick := 7, dt := 1, st := 0 }
    s.status = .running ∧ s.fetch = .ok (.ldImm 0xA 0x7B) ∧
      gives (step s) (fun t => t.dt == 0 && t.st == 0) = true ∧
      (∀ x, Instr.ldImm 0xA 0x7B ≠ .ldDTVx x) ∧ ∀ x, Instr.ldImm 0xA 0x7B ≠ .ldSTVx x :=
  ⟨rfl, rfl, by decide, fun _ h => (nomatch h), fun _ h => (nomatch h)⟩

theorem witness_ParametersAreFixed : ∃ t, step (start 0x6A7B) = .next t := ⟨_, rfl⟩

/-- A stopped state at 0x200, and one at the top of memory. -/
theorem witness_StoppedStateOnlyTicks :
    (start 0x1200).stopped = true ∧ (start 0x1FFE { State.reset with pc := 0xFFE }).stopped = true := by
  decide

theorem witness_SoundTimerIsNeverRead :
    ∃ t, step (start 0xF118 (regs [(1, 0x10)])) = .next t := ⟨_, rfl⟩

/-- The last CALL that fits, and the first that does not. -/
theorem witness_CallPushesTheReturnAddress :
    (let s : State := { State.reset with sp := 0x0EBC }
     Memory.wf s.mem = true ∧ s.cfg.wellFormed = true ∧ s.sp.toNat + 2 ≤ s.cfg.spMax) ∧
    let s : State := { State.reset with sp := 0x0EBE }
    s.cfg.spMax < s.sp.toNat + 2 := by decide

/-- The lowest and the highest SP a RET can pop at, and an empty stack. -/
theorem witness_ReturnPopsPc :
    (let s : State := { State.reset with sp := 0x0002 }
     s.sp.toNat ≠ s.cfg.spEmpty ∧ 2 ≤ s.sp.toNat ∧ s.sp.toNat ≤ 0xFFE) ∧
    (let s : State := { State.reset with sp := 0x0FFE }
     s.sp.toNat ≠ s.cfg.spEmpty ∧ 2 ≤ s.sp.toNat ∧ s.sp.toNat ≤ 0xFFE) ∧
    State.reset.sp.toNat = State.reset.cfg.spEmpty := by decide

/-- Example E5's call; the state it leaves is the one the return starts from. -/
theorem witness_ReturnComesBackFromCall :
    let s := start 0x2210 { State.reset with pc := 0x204 }
    s.inv = true ∧ s.status = .running ∧ ∃ t, exec (.call 0x210) s = .next t ∧ t.status = .running ∧
      t.cfg = t.cfg ∧ t.sp = 0x0EA0 := by
  exact ⟨by decide, rfl, _, rfl, rfl, rfl, rfl⟩

/-- Vector 1.4 (an odd target) and vector 1.19 (an even one beyond memory). -/
theorem witness_BadTargetsHaltAtTheNextFetch :
    (let s := start 0x1FFF
     Instr.isTransfer (.jp 0xFFF) = true ∧ s.status = .running ∧ s.fetch = .ok (.jp 0xFFF) ∧
       (∃ t u, exec (.jp 0xFFF) s = .next t ∧ t.status = .running ∧ step s = .next u ∧
         t.pc.toNat % 2 = 1)) ∧
    let s := start 0xBFFF (regs [(0, 0xFF)])
    Instr.isTransfer (.jpV0 0xFFF) = true ∧ s.status = .running ∧ s.fetch = .ok (.jpV0 0xFFF) ∧
      ∃ t u, exec (.jpV0 0xFFF) s = .next t ∧ t.status = .running ∧ step s = .next u ∧
        t.pc.toNat % 2 = 0 ∧ 0xFFE < t.pc.toNat := by
  exact ⟨⟨by decide, rfl, rfl, _, _, rfl, rfl, rfl, by decide⟩,
    by decide, rfl, rfl, _, _, rfl, rfl, rfl, by decide, by decide⟩

/-- Both modes of the random byte, and the mask 0. -/
theorem witness_RandomAnd :
    State.reset.cfg.deterministic = true ∧
    (State.construct { deterministic := false }).cfg.deterministic = false ∧ (0x00 : Byte) = 0x00 := by
  decide

/-- The last digit with a glyph, and the first value without. -/
theorem witness_SettingTheAddressRegister :
    ((regs [(5, 0x0F)]).getV 5).toNat ≤ 0xF ∧ 0xF < ((regs [(5, 0x10)]).getV 5).toNat := by decide

/-- The last I three bytes fit at, the first they do not, and an I beyond memory. -/
theorem witness_BcdStoresThreeDigits :
    Memory.wf State.reset.mem = true ∧ (0x0FFD : Word).toNat + 2 ≤ 0xFFF ∧
    0xFFF < (0x0FFE : Word).toNat + 2 ∧ 0xFFF < (0xFFFE : Word).toNat + 2 ∧
    0xFFF < (0xFFFF : Word).toNat + 2 := by decide

/-- All sixteen registers: the last I they fit at, and the first they do not. -/
theorem witness_BlockStoreRegisters :
    Memory.wf State.reset.mem = true ∧ (0x0FF0 : Word).toNat + (0xF : RegIdx).toNat ≤ 0xFFF ∧
    0xFFF < (0x0FF1 : Word).toNat + (0xF : RegIdx).toNat ∧
    (0x0FFF : Word).toNat + (0x0 : RegIdx).toNat ≤ 0xFFF := by decide

theorem witness_BlockLoadRegisters :
    (0x0FF0 : Word).toNat + (0xF : RegIdx).toNat ≤ 0xFFF ∧
    0xFFF < (0x0FF1 : Word).toNat + (0xF : RegIdx).toNat ∧
    (0x7 : RegIdx).toNat ≤ (0x7 : RegIdx).toNat ∧ (0x7 : RegIdx).toNat < (0x8 : RegIdx).toNat := by
  decide

/-- Example E6 at the top of memory: sixteen registers at 0xFF0. -/
theorem witness_BlockRoundTrip :
    let s : State := regs [(0, 1), (1, 2), (2, 3)] { State.reset with i := 0x0FF0 }
    Memory.wf s.mem = true ∧ s.status = .running ∧
      ∃ t, exec (.ldMemVx 0xF) s = .next t ∧ t.status = .running ∧ t.mem = t.mem ∧ t.i = s.i := by
  exact ⟨rfl, rfl, _, rfl, rfl, rfl, rfl⟩

theorem witness_MemoryIsBigEndian : Memory.wf State.reset.mem = true ∧ 0xFFE + 2 ≤ 4096 := by decide

/-- Program P6: the store of step 4 and the word at 0x208. -/
theorem witness_StoredCodeIsFetched :
    let s : State := regs [(0, 0x12), (1, 0x08)] { State.reset with i := 0x208 }
    Memory.wf s.mem = true ∧ s.status = .running ∧
      (∃ t, exec (.ldMemVx 1) s = .next t ∧ t.status = .running) ∧
      (0 : RegIdx).toNat + 1 ≤ (1 : RegIdx).toNat ∧
      (0x208 : Word).toNat = s.i.toNat + (0 : RegIdx).toNat ∧ (0x208 : Word).toNat % 2 = 0 := by
  exact ⟨rfl, rfl, ⟨_, rfl, rfl⟩, by decide, by decide, by decide⟩

theorem witness_ClearScreen :
    State.reset.cfg.displayAttached = true ∧ headless.cfg.displayAttached = false := by decide

/-- A sprite whose last byte is at 0xFFF, an empty sprite, a sprite that ends and one that starts
beyond 0xFFF, and headless. -/
theorem witness_DrawXorsTheSprite :
    State.reset.cfg.displayAttached = true ∧ (0x0FF1 : Word).toNat + (0xF : Nibble).toNat - 1 ≤ 0xFFF ∧
    (0x0 : Nibble).toNat = 0 ∧ (0x2 : Nibble).toNat ≠ 0 ∧
    0xFFF < (0x0FFF : Word).toNat + (0x2 : Nibble).toNat - 1 ∧
    0xFFF < (0x1000 : Word).toNat + (0x1 : Nibble).toNat - 1 ∧
    headless.cfg.displayAttached = false := by decide

theorem witness_EmptySpriteClearsTheFlag : State.reset.cfg.displayAttached = true := rfl

/-- Registers named twice, and a destination that is not VF. -/
theorem witness_BitwiseOperations : (3 : RegIdx) = 3 ∧ (3 : RegIdx) ≠ Config.flagReg := by decide

theorem witness_ShiftsByOne :
    fieldO 0x80F6 = 0x8 ∧ fieldN 0x80F6 = 0x6 ∧ fieldO 0x8A5E = 0x8 ∧ fieldN 0x8A5E = 0xE := by decide

/-- Example E7's sprite: the second draw starts from the state the first left. -/
theorem witness_DrawTwiceRestoresThePicture :
    sprite.status = .running ∧ ∃ t w, exec (.drw 0 1 2) sprite = .next t ∧ t.status = .running ∧
      t.mem = sprite.mem ∧ t.i = sprite.i ∧ t.cfg = sprite.cfg ∧ t.getV 0 = sprite.getV 0 ∧
      t.getV 1 = sprite.getV 1 ∧ exec (.drw 0 1 2) t = .next w := by
  exact ⟨rfl, _, _, rfl, rfl, rfl, rfl, rfl, by decide, by decide, rfl⟩

theorem witness_PresentsComeFromClsAndDrw :
    State.reset.status = .running ∧ (∃ t, exec .cls State.reset = .next t ∧ t.status = .running) ∧
    (∃ t, exec (.drw 0 1 2) sprite = .next t ∧ t.status = .running) ∧
    (∃ t, exec (.ldImm 0xA 0x7B) State.reset = .next t) ∧ Instr.ldImm 0xA 0x7B ≠ .cls ∧
    ∀ x y n, Instr.ldImm 0xA 0x7B ≠ .drw x y n :=
  ⟨rfl, ⟨_, rfl, rfl⟩, ⟨_, rfl, rfl⟩, ⟨_, rfl⟩, (fun h => nomatch h), fun _ _ _ h => nomatch h⟩

/-- Vectors 6.1 (the key is the register), 6.3 (it is only its low nibble) and headless. -/
theorem witness_KeySkips :
    (key (some 7) (regs [(4, 7)])).cfg.displayAttached = true ∧
    (∃ k, (key (some 7) (regs [(4, 7)])).kbd = some k ∧
      k.toNat = ((key (some 7) (regs [(4, 7)])).getV 4).toNat) ∧
    (∀ k, (key (some 7) (regs [(4, 0x17)])).kbd = some k →
      k.toNat ≠ ((key (some 7) (regs [(4, 0x17)])).getV 4).toNat) ∧
    headless.cfg.displayAttached = false := by
  refine ⟨rfl, ⟨7, rfl, by decide⟩, ?_, rfl⟩
  intro k h
  cases h
  decide

/-- A key, no key with the key wait at PC, and headless. -/
theorem witness_KeyWait :
    (key (some 0xB)).cfg.displayAttached = true ∧ (key (some 0xB)).kbd = some 0xB ∧
    (start 0xF30A (key none)).kbd = none ∧ (start 0xF30A (key none)).status = .running ∧
    (start 0xF30A (key none)).fetch = .ok (.ldVxK 3) ∧ headless.cfg.displayAttached = false :=
  ⟨rfl, rfl, rfl, rfl, rfl, rfl⟩

theorem witness_OnlyThreeInstructionsWriteI :
    ∃ t, exec (.ldI 0x300) State.reset = .next t ∧ t.i ≠ State.reset.i :=
  ⟨_, rfl, by decide⟩

theorem witness_OnlyCallAndReturnMoveSp :
    ∃ t, exec (.call 0x210) State.reset = .next t ∧ t.sp ≠ State.reset.sp :=
  ⟨_, rfl, by decide⟩

theorem witness_RegistersChangeOnlyAsNamed :
    ∃ t, exec (.addReg 0 1) (regs [(0, 250), (1, 10)]) = .next t ∧
      t.getV Config.flagReg ≠ (regs [(0, 250), (1, 10)]).getV Config.flagReg :=
  ⟨_, rfl, by decide⟩

/-- The three instructions that store, each changing a byte. -/
theorem witness_MemoryChangesOnlyWhereStored :
    (∃ t, exec (.call 0x210) State.reset = .next t ∧
      readMem t.mem 0x0EA1 ≠ readMem State.reset.mem 0x0EA1) ∧
    (∃ t, exec (.ldBVx 0) (regs [(0, 255)]) = .next t ∧
      readMem t.mem 2 ≠ readMem (regs [(0, 255)]).mem 2) ∧
    ∃ t, exec (.ldMemVx 0) (regs [(0, 255)]) = .next t ∧
      readMem t.mem 0 ≠ readMem (regs [(0, 255)]).mem 0 :=
  ⟨⟨_, rfl, by decide⟩, ⟨_, rfl, by decide⟩, _, rfl, by decide⟩

end Sys2Proof.Tests
end

namespace Sys2Proof.Machine

/-! ### Equations of the shared operations, one for each of their cases -/

/-- A push in the region but beyond memory raises the bounds error. -/
theorem push_outOfRange {s : State} {e : FatalError} (w : Word)
    (h : s.sp.toNat + 2 ≤ s.cfg.spMax) (hb : boundsError s (s.sp.toNat + 2) 2 = some e) :
    s.push w = .error e := by
  simp [State.push, Nat.not_lt.mpr h, hb]

/-- A pop of a non-empty stack beyond memory raises the bounds error. -/
theorem pop_outOfRange {s : State} {e : FatalError} (h : s.sp.toNat ≠ s.cfg.spEmpty)
    (hb : boundsError s s.sp.toNat 2 = some e) : s.pop = .error e := by
  simp [State.pop, h, hb]

/-- LD F, Vx of a value that is no digit (R212, R310). -/
theorem execLdFVx_raise {s : State} {x : RegIdx} (h : 0xF < (s.getV x).toNat) :
    execLdFVx x s = s.raise (.fontDigitRange s.pc (s.getV x)) := if_pos h

/-- The N-th completed step ticks the timers and starts the count again (R117). -/
theorem countStep_last {s : State} (h : s.tick + 1 = s.cfg.timerDivider) :
    s.countStep = { s.tickTimers with tick := 0 } := if_pos h

/-- Every other completed step is counted (R117). -/
theorem countStep_before {s : State} (h : s.tick + 1 ≠ s.cfg.timerDivider) :
    s.countStep = { s with tick := s.tick + 1 } := if_neg h

/-- The random byte is drawn from the inputs alone (R183). -/
theorem takeRnd_eq (s : State) : s.takeRnd = { s with inputs := s.takeRnd.inputs } := by
  unfold State.takeRnd
  split <;> rfl

/-! ### What an execution can do

The inversion lemma of `exec`: the 34 meanings change the state in eleven ways. The statements about
every instruction below are derived from it. -/

/-- The registers that differ are the instruction's destinations, or VF where it writes a flag
(R23). -/
def OnlyNamedDiffer (i : Instr) (s t : State) : Prop :=
  ∀ r, t.getV r ≠ s.getV r →
    i.destinations r = true ∨ (r = Config.flagReg ∧ i.writesFlag = true)

/-- The three instructions that write I (R25). -/
def WritesI (i : Instr) : Prop :=
  (∃ nnn, i = .ldI nnn) ∨ (∃ x, i = .addIVx x) ∨ ∃ x, i = .ldFVx x

/-- The ways the execution of an instruction at `s` changes the state. -/
inductive Change (s : State) : Instr → State → Prop where
  /-- A fatal error, precise (R302). -/
  | raise (i : Instr) (e : FatalError)
      (precise : State.haltOk { s with status := .halted e } = true) :
      Change s i { s with status := .halted e }
  /-- Registers, PC and the step's inputs; the skips and jumps write no register. -/
  | registers (i : Instr) (v : Vector Byte 16) (pc : Word) (q : Inputs)
      (named : OnlyNamedDiffer i s { s with v := v, pc := pc, inputs := q }) :
      Change s i { s with v := v, pc := pc, inputs := q }
  /-- The address register. -/
  | address (i : Instr) (a : Word) (writer : WritesI i) :
      Change s i { s with i := a, pc := s.pc + 2 }
  /-- The delay timer. -/
  | delayTimer (x : RegIdx) :
      Change s (.ldDTVx x) { s with dt := s.getV x, pc := s.pc + 2 }
  /-- The sound timer. -/
  | soundTimer (x : RegIdx) :
      Change s (.ldSTVx x) { s with st := s.getV x, pc := s.pc + 2 }
  /-- The three digits at I. -/
  | storeDigits (x : RegIdx) (fits : s.i.toNat + 3 ≤ Config.memSize) :
      Change s (.ldBVx x)
        { s with mem := writeBytes s.mem s.i.toNat (bcdDigits (s.getV x)), pc := s.pc + 2 }
  /-- V0 to Vx at I. -/
  | storeRegisters (x : RegIdx) (fits : s.i.toNat + (x.toNat + 1) ≤ Config.memSize) :
      Change s (.ldMemVx x)
        { s with mem := writeBytes s.mem s.i.toNat (s.regsUpTo x), pc := s.pc + 2 }
  /-- The picture is cleared. -/
  | clear (attached : s.cfg.displayAttached = true) :
      Change s .cls { s with display := (s.display.clear false).present, pc := s.pc + 2 }
  /-- A sprite is drawn, and VF is its collision. -/
  | draw (x y : RegIdx) (n : Nibble) (attached : s.cfg.displayAttached = true) :
      Change s (.drw x y n)
        ({ s with display := (drawBlit s x y n).display.present }.setV Config.flagReg
          (collisionFlag (drawBlit s x y n).collision)).advance
  /-- A push of the address after the call. -/
  | call (nnn : Addr) (room : s.sp.toNat + 2 ≤ s.cfg.spMax)
      (fits : s.sp.toNat + 4 ≤ Config.memSize) :
      Change s (.call nnn)
        { s with
          mem := writeWord s.mem (s.sp.toNat + 2) (s.pc + 2)
          sp := BitVec.ofNat 16 (s.sp.toNat + 2)
          pc := addrWord nnn }
  /-- A pop of the return address. -/
  | ret (nonempty : s.sp.toNat ≠ s.cfg.spEmpty) (fits : s.sp.toNat + 2 ≤ Config.memSize) :
      Change s .ret { s with sp := s.sp - 2, pc := readWord s.mem s.sp.toNat }

/-! #### The errors are precise -/

theorem boundsError_precise {s : State} {a n : Nat} {e : FatalError}
    (h : boundsError s a n = some e) : State.haltOk { s with status := .halted e } = true := by
  obtain ⟨-, -, rfl⟩ := boundsError_eq_some.mp h
  simp [State.haltOk]

theorem push_precise {s : State} {w : Word} {e : FatalError} (h : s.push w = .error e) :
    State.haltOk { s with status := .halted e } = true := by
  rcases push_error h with ⟨rfl, -⟩ | ⟨a, rfl, -⟩ <;> simp [State.haltOk]

theorem pop_precise {s : State} {e : FatalError} (h : s.pop = .error e) :
    State.haltOk { s with status := .halted e } = true := by
  rcases pop_error h with ⟨rfl, -⟩ | ⟨a, rfl, -⟩ <;> simp [State.haltOk]

/-- A fetch raises one of three errors (R304), each with the state's own PC. -/
theorem fetch_precise {s : State} {e : FatalError} (h : s.fetch = .error e) :
    State.haltOk { s with status := .halted e } = true := by
  unfold State.fetch at h
  split at h
  · cases h; simp [State.haltOk]
  · split at h
    · next hb => cases h; exact boundsError_precise hb
    · split at h
      · cases h; simp [State.haltOk]
      · cases h

/-! #### The register writes -/

theorem getV_setV_ne {s : State} {x r : RegIdx} {b : Byte} (h : (s.setV x b).getV r ≠ s.getV r) :
    r = x := by
  by_contra hne
  exact h (getV_setV_of_ne s x r b hne)

namespace Change

/-- The error of an instruction that needs the display (R306). -/
theorem headless (s : State) (i : Instr) : Change s i (headlessHalt s i) :=
  .raise i _ (by simp [State.haltOk])

/-- PC and the inputs: a skip or a jump. -/
theorem control (s : State) (i : Instr) (pc : Word) (q : Inputs) :
    Change s i { s with pc := pc, inputs := q } :=
  .registers i s.v pc q fun _ h => absurd rfl h

/-- A result in a destination, without a flag. -/
theorem register {s : State} {i : Instr} (x : RegIdx) (b : Byte) (q : Inputs)
    (hx : i.destinations x = true) : Change s i ({ s with inputs := q }.setV x b).advance :=
  .registers i _ _ q fun _ h => .inl (getV_setV_ne (s := s) h ▸ hx)

/-- A result in a destination, with a flag. -/
theorem registerAndFlag {s : State} {i : Instr} (x : RegIdx) (f b : Byte)
    (hx : i.destinations x = true) (hf : i.writesFlag = true) :
    Change s i (s.flagThenDest x f b).advance := by
  refine .registers i _ _ s.inputs fun r h => ?_
  replace h : (s.flagThenDest x f b).getV r ≠ s.getV r := h
  rw [getV_flagThenDest] at h
  split at h
  · next hr => exact .inl (hr ▸ hx)
  · split at h
    · next hr => exact .inr ⟨hr, hf⟩
    · exact absurd rfl h

/-- V0 to Vx loaded from memory. -/
theorem loadRegisters (s : State) (x : RegIdx) :
    Change s (.ldVxMem x) { s with v := s.loadUpTo x, pc := s.pc + 2 } := by
  refine .registers _ _ _ s.inputs fun r h => .inl ?_
  replace h : (s.loadUpTo x).get ⟨r.toNat, r.isLt⟩ ≠ s.getV r := h
  rw [get_loadUpTo] at h
  split at h
  · next hr => exact decide_eq_true hr
  · exact absurd rfl h

end Change

/-- Every execution is one of the changes, whatever the state. -/
theorem exec_change {i : Instr} {s t : State} (h : exec i s = .next t) : Change s i t := by
  cases i with
  | cls =>
    rcases guard_display h with ⟨-, rfl⟩ | ⟨ha, hn⟩
    · exact .headless s _
    · cases hn; exact .clear ha
  | ret =>
    rcases execRet_cases h with ⟨e, he, rfl⟩ | ⟨hne, hfit, rfl⟩
    · exact .raise _ e (pop_precise he)
    · exact .ret hne hfit
  | jp | seImm | sneImm | seReg | sneReg | jpV0 => cases h; exact .control s _ _ s.inputs
  | call nnn =>
    rcases execCall_cases h with ⟨e, he, rfl⟩ | ⟨hroom, hfit, rfl⟩
    · exact .raise _ e (push_precise he)
    · exact .call nnn hroom hfit
  | ldImm x | addImm x | ldReg x | orReg x | andReg x | xorReg x | ldVxDT x =>
    cases h; exact .register x _ s.inputs (beq_self_eq_true x)
  | addReg x | subReg x | shr x | subnReg x | shl x =>
    cases h; exact .registerAndFlag x _ _ (beq_self_eq_true x) rfl
  | ldI => cases h; exact .address _ _ (.inl ⟨_, rfl⟩)
  | addIVx x => cases h; exact .address _ _ (.inr (.inl ⟨x, rfl⟩))
  | ldFVx x =>
    rcases execLdFVx_cases h with ⟨-, rfl⟩ | ⟨-, rfl⟩
    · exact .raise _ _ (by simp [State.haltOk])
    · exact .address _ _ (.inr (.inr ⟨x, rfl⟩))
  | rnd x kk =>
    cases h
    rw [takeRnd_eq]
    exact .register x _ _ (beq_self_eq_true x)
  | drw x y n =>
    rcases execDrw_cases h with ⟨-, rfl⟩ | ⟨e, -, he, rfl⟩ | ⟨ha, -, rfl⟩
    · exact .headless s _
    · exact .raise _ e (boundsError_precise he)
    · exact .draw x y n ha
  | skp | sknp =>
    rcases guard_display h with ⟨-, rfl⟩ | ⟨-, hn⟩
    · exact .headless s _
    · cases hn; exact .control s _ _ _
  | ldVxK x =>
    rcases execLdVxK_cases h with ⟨-, rfl⟩ | ⟨-, -, rfl⟩ | ⟨k, -, -, rfl⟩
    · exact .headless s _
    · exact .control s _ s.pc _
    · exact .register x _ _ (beq_self_eq_true x)
  | ldDTVx x => cases h; exact .delayTimer x
  | ldSTVx x => cases h; exact .soundTimer x
  | ldBVx x =>
    rcases execLdBVx_cases h with ⟨e, he, rfl⟩ | ⟨hfit, rfl⟩
    · exact .raise _ e (boundsError_precise he)
    · exact .storeDigits x hfit
  | ldMemVx x =>
    rcases execLdMemVx_cases h with ⟨e, he, rfl⟩ | ⟨hfit, rfl⟩
    · exact .raise _ e (boundsError_precise he)
    · exact .storeRegisters x hfit
  | ldVxMem x =>
    rcases execLdVxMem_cases h with ⟨e, he, rfl⟩ | ⟨-, rfl⟩
    · exact .raise _ e (boundsError_precise he)
    · exact .loadRegisters s x

/-! ### The frames of an execution -/

namespace Change

variable {s t : State} {i : Instr}

theorem cfg (h : Change s i t) : t.cfg = s.cfg := by cases h <;> rfl

theorem tick (h : Change s i t) : t.tick = s.tick := by cases h <;> rfl

theorem i_eq_or_writesI (h : Change s i t) : t.i = s.i ∨ WritesI i := by
  cases h with
  | address _ _ writer => exact .inr writer
  | _ => exact .inl rfl

theorem sp_eq_or_stack (h : Change s i t) : t.sp = s.sp ∨ i = .ret ∨ ∃ nnn, i = .call nnn := by
  cases h with
  | ret => exact .inr (.inl rfl)
  | call nnn => exact .inr (.inr ⟨nnn, rfl⟩)
  | _ => exact .inl rfl

theorem onlyNamedDiffer (h : Change s i t) : OnlyNamedDiffer i s t := by
  cases h with
  | registers _ _ _ _ named => exact named
  | draw x y n => exact fun r hr => .inr ⟨getV_setV_ne (s := s) hr, rfl⟩
  | _ => exact fun _ hr => absurd rfl hr

end Change

/-- What follows the execution changes no parameter. -/
@[simp] theorem cfg_afterExec (s : State) (i : Instr) (t : State) :
    (s.afterExec i t).cfg = t.cfg := by
  rcases afterExec_cases s i t with ⟨e, -, h⟩ | ⟨-, -, h⟩ | ⟨-, -, h⟩ <;> rw [h]
  exact cfg_countStep t

/-! ### The invariant -/

/-- From `SP_EMPTY` or a slot below `SP_MAX`, the next slot is legal, and SP does not wrap (R140). -/
theorem stackOk_push {s : State} (hp : s.cfg.wellFormed = true) (h : s.stackOk = true)
    (room : s.sp.toNat + 2 ≤ s.cfg.spMax) :
    State.stackOk { s with sp := BitVec.ofNat 16 (s.sp.toNat + 2) } = true := by
  obtain ⟨-, -, hbase, hmax, -, -⟩ := (wellFormed_iff s.cfg).mp hp
  have hsp : (BitVec.ofNat 16 (s.sp.toNat + 2)).toNat = s.sp.toNat + 2 := by
    rw [BitVec.toNat_ofNat]; omega
  rw [stackOk_iff] at h ⊢
  simp only [hsp]
  unfold Params.spEmpty at h ⊢
  omega

/-- From a slot, the slot below it or `SP_EMPTY` is legal (R141). -/
theorem stackOk_pop {s : State} (hp : s.cfg.wellFormed = true) (h : s.stackOk = true)
    (nonempty : s.sp.toNat ≠ s.cfg.spEmpty) :
    State.stackOk { s with sp := s.sp - 2 } = true := by
  obtain ⟨-, -, hbase, -, -, -⟩ := (wellFormed_iff s.cfg).mp hp
  rw [stackOk_iff] at h ⊢
  have hsp : (s.sp - 2).toNat = s.sp.toNat - 2 := by
    rw [BitVec.toNat_sub_of_le] <;> simp [BitVec.le_def]; omega
  simp only [hsp]
  unfold Params.spEmpty at h nonempty ⊢
  omega

namespace Change

variable {s t : State} {i : Instr}

theorem mem_wf (h : Change s i t) (hm : Memory.wf s.mem = true) : Memory.wf t.mem = true := by
  cases h with
  | storeDigits x fits => exact writeBytes_wf hm fits
  | storeRegisters x fits => exact writeBytes_wf hm (by rwa [length_regsUpTo])
  | call nnn room fits => exact writeWord_wf hm fits
  | _ => exact hm

theorem stackOk (h : Change s i t) (hp : s.cfg.wellFormed = true) (hs : s.stackOk = true) :
    t.stackOk = true := by
  cases h with
  | call nnn room fits => exact stackOk_push hp hs room
  | ret nonempty fits => exact stackOk_pop hp hs nonempty
  | _ => exact hs

theorem headlessOk (h : Change s i t) (hd : s.headlessOk = true) : t.headlessOk = true := by
  cases h with
  | clear attached | draw _ _ _ attached =>
    rw [headlessOk_iff]
    exact fun hf => absurd (attached.symm.trans hf) (by decide)
  | _ => exact hd

theorem haltOk (h : Change s i t) (hr : s.status = .running) : t.haltOk = true := by
  cases h with
  | raise _ e precise => exact precise
  | _ => exact haltOk_running hr

/-- An execution from a running state keeps the invariant. -/
theorem inv (h : Change s i t) (hr : s.status = .running) (hs : s.inv = true) : t.inv = true := by
  obtain ⟨hp, hm, hst, ht, hd, -⟩ := (inv_iff s).mp hs
  refine (inv_iff t).mpr ⟨h.cfg ▸ hp, h.mem_wf hm, h.stackOk hp hst, ?_, h.headlessOk hd,
    h.haltOk hr⟩
  rw [tickOk_iff] at ht ⊢
  rwa [h.tick, h.cfg]

end Change

/-- A precise halt keeps the invariant: nothing but the status changes (R302). -/
theorem inv_halt {s : State} {e : FatalError} (hs : s.inv = true)
    (precise : State.haltOk { s with status := .halted e } = true) :
    State.inv { s with status := .halted e } = true := by
  obtain ⟨hp, hm, hst, ht, hd, -⟩ := (inv_iff s).mp hs
  exact (inv_iff _).mpr ⟨hp, hm, hst, ht, hd, precise⟩

/-- The count starts again at N, so it stays below N (R33, R117). -/
theorem tickOk_countStep {s : State} (h : s.tickOk = true) : s.countStep.tickOk = true := by
  rw [tickOk_iff] at h ⊢
  by_cases hlast : s.tick + 1 = s.cfg.timerDivider
  · rw [countStep_last hlast]
    exact Nat.zero_lt_of_lt h
  · rw [countStep_before hlast]
    show s.tick + 1 < s.cfg.timerDivider
    omega

theorem inv_countStep {s : State} (hr : s.status = .running) (hs : s.inv = true) :
    s.countStep.inv = true := by
  obtain ⟨hp, hm, hst, ht, hd, -⟩ := (inv_iff s).mp hs
  refine (inv_iff _).mpr ⟨by simpa using hp, by simpa using hm, ?_, tickOk_countStep ht, ?_,
    haltOk_running (by simpa using hr)⟩
  · rw [stackOk_iff] at hst ⊢
    simpa using hst
  · rw [headlessOk_iff] at hd ⊢
    simpa using hd

theorem inv_afterExec {s t : State} (i : Instr) (ht : t.inv = true) :
    (s.afterExec i t).inv = true := by
  rcases afterExec_cases s i t with ⟨e, -, h⟩ | ⟨-, -, h⟩ | ⟨hr, -, h⟩ <;> rw [h]
  · exact ht
  · exact ht
  · exact inv_countStep hr ht

/-- Settles O12: a step takes a fetch error, or executes and then counts; each keeps it. -/
theorem everyStepKeepsTheInvariant : Obligations.EveryStepKeepsTheInvariant := by
  intro s t hs h
  obtain ⟨hr, ⟨e, he, rfl⟩ | ⟨i, u, -, hu, rfl⟩⟩ := step_cases h
  · exact inv_halt hs (fetch_precise he)
  · exact inv_afterExec i ((exec_change hu).inv hr hs)

/-- Settles O25, by the frame of an execution and of the count after it. -/
theorem parametersAreFixed : Obligations.ParametersAreFixed := by
  intro s t h
  obtain ⟨-, ⟨e, -, rfl⟩ | ⟨i, u, -, hu, rfl⟩⟩ := step_cases h
  · rfl
  · rw [cfg_afterExec, (exec_change hu).cfg]

/-- Settles O56: of the changes, only `Change.address` touches I. -/
theorem onlyThreeInstructionsWriteI : Obligations.OnlyThreeInstructionsWriteI :=
  fun _ _ _ h hne => (exec_change h).i_eq_or_writesI.resolve_left hne

/-- Settles O57: of the changes, only `Change.call` and `Change.ret` touch SP. -/
theorem onlyCallAndReturnMoveSp : Obligations.OnlyCallAndReturnMoveSp :=
  fun _ _ _ h hne => (exec_change h).sp_eq_or_stack.resolve_left hne

/-- Settles O58: of the changes, only `Change.registers` and `Change.draw` touch a register. -/
theorem registersChangeOnlyAsNamed : Obligations.RegistersChangeOnlyAsNamed :=
  fun _ _ _ r h => (exec_change h).onlyNamedDiffer r

/-! ### The state after construction -/

theorem getV_construct (p : Params) (r : RegIdx) : (State.construct p).getV r = 0x00 := by
  simp [State.construct, State.getV, Vector.get_eq_getElem]

theorem getPixel_construct (p : Params) (px : Fin 64) (py : Fin 32) :
    (State.construct p).display.getPixel px py = false := by
  simp [State.construct, Display.getPixel, FrameBuffer.filled, Vector.get_eq_getElem]

/-- SP starts at `SP_EMPTY`, which fits in 16 bits (R6, R27). -/
theorem stackOk_construct {p : Params} (hp : p.wellFormed = true) :
    (State.construct p).stackOk = true := by
  obtain ⟨-, -, -, hmax, -, -⟩ := (wellFormed_iff p).mp hp
  have hlt : p.spEmpty < 2 ^ 16 := by
    unfold Params.spMax at hmax
    unfold Params.spEmpty
    omega
  rw [stackOk_iff]
  exact .inl ((BitVec.toNat_ofNat ..).trans (Nat.mod_eq_of_lt hlt))

theorem inv_construct {p : Params} (hp : p.wellFormed = true) :
    (State.construct p).inv = true := by
  obtain ⟨-, -, -, -, -, hdiv⟩ := (wellFormed_iff p).mp hp
  exact (inv_iff _).mpr ⟨hp, rfl, stackOk_construct hp, (tickOk_iff _).mpr hdiv,
    (headlessOk_iff _).mpr fun _ => rfl, rfl⟩

/-- Settles O9, value by value. -/
theorem constructionLeavesTheResetValues : Obligations.ConstructionLeavesTheResetValues := by
  refine ⟨?_, rfl, rfl⟩
  rintro p s rfl
  exact ⟨readMem_nil, getV_construct p, rfl, rfl, rfl, rfl, rfl, getPixel_construct p, rfl, rfl,
    rfl, rfl, rfl⟩

/-- Settles O10, by the read-after-write law and the reset values. -/
theorem registersReadAsLastWritten : Obligations.RegistersReadAsLastWritten :=
  ⟨getV_setV, getV_construct⟩

/-- Settles O11: the reset parameters are well formed, so reset is a case of construction. -/
theorem invariantAtConstruction : Obligations.InvariantAtConstruction :=
  ⟨fun _ hp => inv_construct hp, inv_construct (p := {}) (by decide)⟩

/-! ### The sound timer is an output

`silent` sets ST to 0. An execution, and a step, of a silenced state answers what the state itself
does, but for ST; so states that differ in ST alone step alike. -/

/-- The state with the sound timer off. -/
def State.silent (s : State) : State := { s with st := 0 }

section

variable (s : State)

@[simp] theorem silent_silent : s.silent.silent = s.silent := rfl
@[simp] theorem pc_silent : s.silent.pc = s.pc := rfl
@[simp] theorem status_silent : s.silent.status = s.status := rfl
@[simp] theorem kbd_silent : s.silent.kbd = s.kbd := rfl
@[simp] theorem fetch_silent : s.silent.fetch = s.fetch := rfl
@[simp] theorem stalls_silent (i : Instr) : s.silent.stalls i = s.stalls i := rfl

end

/-- An outcome with the sound timer of its state off. -/
def silentResult : Result → Result
  | .next t => .next t.silent
  | .fault f => .fault f
  | .refused r => .refused r

theorem silentResult_eq_next {r : Result} {u : State} (h : silentResult r = .next u) :
    ∃ t, r = .next t ∧ t.silent = u := by
  cases r with
  | next t => cases h; exact ⟨t, rfl, rfl⟩
  | fault f => cases h
  | refused r => cases h

/-- Errors do not depend on ST, so neither does what is guarded. -/
theorem silent_guard {s : State} (o : Option FatalError) {r r' : Result}
    (h : silentResult r' = silentResult r) :
    silentResult (s.silent.guard o r') = silentResult (s.guard o r) := by
  cases o with
  | none => exact h
  | some e => rfl

/-- An operation's errors do not depend on ST, so an instruction continues or raises alike. -/
theorem silent_bindError {α : Type} {s : State} (r : Except FatalError α) (g : α → α)
    {ok : α → Result} (h : ∀ a, silentResult (ok (g a)) = silentResult (ok a)) :
    silentResult (s.silent.bindError (r.map g) ok) = silentResult (s.bindError r ok) := by
  cases r with
  | error e => rfl
  | ok a => exact h a

theorem push_silent (s : State) (w : Word) : s.silent.push w = (s.push w).map State.silent := by
  by_cases hmax : s.cfg.spMax < s.sp.toNat + 2
  · rw [push_overflow w hmax, push_overflow (s := s.silent) w hmax]; rfl
  · have hroom := Nat.le_of_not_lt hmax
    cases hb : boundsError s (s.sp.toNat + 2) 2 with
    | some e =>
      rw [push_outOfRange w hroom hb, push_outOfRange (s := s.silent) w hroom hb]; rfl
    | none =>
      have hfit := (boundsError_eq_none.mp hb).resolve_left (by decide)
      rw [push_ok w hroom hfit, push_ok (s := s.silent) w hroom hfit]; rfl

theorem pop_silent (s : State) : s.silent.pop = s.pop.map fun r => (r.1, r.2.silent) := by
  by_cases hempty : s.sp.toNat = s.cfg.spEmpty
  · rw [pop_underflow hempty, pop_underflow (s := s.silent) hempty]; rfl
  · cases hb : boundsError s s.sp.toNat 2 with
    | some e => rw [pop_outOfRange hempty hb, pop_outOfRange (s := s.silent) hempty hb]; rfl
    | none =>
      have hfit := (boundsError_eq_none.mp hb).resolve_left (by decide)
      rw [pop_ok hempty hfit, pop_ok (s := s.silent) hempty hfit]; rfl

theorem takeRnd_silent (s : State) : s.silent.takeRnd = s.takeRnd.silent := by
  cases h : s.cfg.deterministic <;> simp [State.takeRnd, h, State.silent]

theorem waitKey_silent (s : State) (x : RegIdx) : s.silent.waitKey x = (s.waitKey x).silent := by
  simp only [State.waitKey, kbd_silent]
  cases s.kbd <;> rfl

theorem execLdFVx_silent (x : RegIdx) (s : State) :
    silentResult (execLdFVx x s.silent) = silentResult (execLdFVx x s) := by
  by_cases h : (s.getV x).toNat ≤ 0xF
  · rw [execLdFVx_ok h, execLdFVx_ok (s := s.silent) h]; rfl
  · have h' := Nat.lt_of_not_le h
    rw [execLdFVx_raise h', execLdFVx_raise (s := s.silent) h']; rfl

/-- No instruction reads ST. -/
theorem exec_silent (i : Instr) (s : State) :
    silentResult (exec i s.silent) = silentResult (exec i s) := by
  cases i with
  | cls | skp | sknp | ldBVx | ldMemVx | ldVxMem => exact silent_guard _ rfl
  | drw => exact silent_guard _ (silent_guard _ rfl)
  | ldVxK x => exact silent_guard _ (by rw [waitKey_silent]; rfl)
  | ret =>
    show silentResult (execRet s.silent) = _
    rw [execRet, pop_silent]
    exact silent_bindError _ _ fun _ => rfl
  | call nnn =>
    show silentResult (execCall nnn s.silent) = _
    rw [execCall, pc_silent, push_silent]
    exact silent_bindError _ _ fun _ => rfl
  | rnd x kk =>
    show silentResult (execRnd x kk s.silent) = _
    rw [execRnd, takeRnd_silent]
    rfl
  | ldFVx x => exact execLdFVx_silent x s
  | _ => rfl

theorem countStep_silent (s : State) : s.silent.countStep.silent = s.countStep.silent := by
  by_cases h : s.tick + 1 = s.cfg.timerDivider
  · rw [countStep_last h, countStep_last (s := s.silent) h]; rfl
  · rw [countStep_before h, countStep_before (s := s.silent) h]; rfl

theorem afterExec_silent (s : State) (i : Instr) (t : State) :
    (s.silent.afterExec i t.silent).silent = (s.afterExec i t).silent := by
  simp only [State.afterExec, status_silent, stalls_silent]
  cases t.status with
  | halted e => rfl
  | running => by_cases h : s.stalls i = true <;> simp [h, countStep_silent]

theorem finish_silent (s : State) (i : Instr) (r : Result) :
    silentResult (s.silent.finish i (silentResult r)) = silentResult (s.finish i r) := by
  cases r with
  | next t => exact congrArg (Host.Outcome.next : State → Result) (afterExec_silent s i t)
  | fault f => rfl
  | refused f => rfl

/-- No step reads ST: the fetch does not, the execution does not, and the count only writes it. -/
theorem step_silent (s : State) : silentResult (step s.silent) = silentResult (step s) := by
  simp only [step, status_silent, fetch_silent]
  cases s.status with
  | halted e => rfl
  | running =>
    cases s.fetch with
    | error e => rfl
    | ok i =>
      calc silentResult (s.silent.finish i (exec i s.silent))
          = silentResult (s.silent.finish i (silentResult (exec i s.silent))) :=
            (finish_silent s.silent i _).symm
        _ = silentResult (s.silent.finish i (silentResult (exec i s))) := by rw [exec_silent]
        _ = silentResult (s.finish i (exec i s)) := finish_silent s i _

/-- Settles O27: both states step as the same silenced state does, but for ST. -/
theorem soundTimerIsNeverRead : Obligations.SoundTimerIsNeverRead := by
  intro s t b h
  apply silentResult_eq_next
  calc silentResult (step { s with st := b })
      = silentResult (step s.silent) := (step_silent { s with st := b }).symm
    _ = silentResult (step s) := step_silent s
    _ = .next t.silent := by rw [h]; rfl

end Sys2Proof.Machine

namespace Sys2Proof.Machine

/-! ### What is read after a store of bytes -/

/-- Each byte stored is the byte read at its address (R57). -/
theorem readMem_writeBytes_stored {m : Memory} {a k : Nat} {bs : List Byte} {b : Byte}
    (hm : Memory.wf m = true) (fits : a + bs.length ≤ Config.memSize) (hk : bs[k]? = some b) :
    readMem (writeBytes m a bs) (a + k) = b := by
  have hlt : k < bs.length := (List.getElem?_eq_some_iff.mp hk).1
  rw [readMem_writeBytes hm fits, if_pos (by omega), Nat.add_sub_cancel_left, List.getD, hk]
  rfl

/-- A read that differs is of one of the bytes stored, in any memory. -/
theorem range_of_readMem_writeBytes_ne {m : Memory} {a c : Nat} {bs : List Byte}
    (h : readMem (writeBytes m a bs) c ≠ readMem m c) : a ≤ c ∧ c < a + bs.length := by
  by_contra hout
  exact h (readMem_writeBytes_outside (by omega))

/-! ### Words (R51, R52) -/

/-- The high byte of a word counts 256 times. -/
theorem toNat_wordOfBytes (hi lo : Byte) :
    (wordOfBytes hi lo).toNat = 256 * hi.toNat + lo.toNat := by
  rw [wordOfBytes, BitVec.toNat_append, ← Nat.shiftLeft_add_eq_or_of_lt lo.isLt,
    Nat.shiftLeft_eq, Nat.mul_comm]

/-- Settles O45, by the value of two bytes and the read of a word after its write. -/
theorem memoryIsBigEndian : Obligations.MemoryIsBigEndian :=
  ⟨fun _ _ => toNat_wordOfBytes _ _, fun _ _ _ => readWord_writeWord⟩

/-! ### The load port (R57) -/

/-- A source that cannot be read halts the machine. -/
theorem load_unreadable {s : State} (hr : s.status = .running) (offset : Nat) :
    s.load none offset = { s with status := .halted (.loadError .unreadable) } := by
  rw [State.load, hr]

/-- An image that ends beyond memory halts the machine. -/
theorem load_doesNotFit {s : State} (hr : s.status = .running) {bytes : List Byte} {offset : Nat}
    (h : Config.memSize < offset + bytes.length) :
    s.load (some bytes) offset = { s with status := .halted (.loadError .doesNotFit) } := by
  simp only [State.load, hr, if_pos h]

/-- An image that fits is stored. -/
theorem load_fits {s : State} (hr : s.status = .running) {bytes : List Byte} {offset : Nat}
    (h : offset + bytes.length ≤ Config.memSize) :
    s.load (some bytes) offset = { s with mem := writeBytes s.mem offset bytes } := by
  simp only [State.load, hr, if_neg (Nat.not_lt.mpr h)]

/-- Settles O13: a load that fits is a store of its bytes, and the others halt. -/
theorem loadPortCopiesOrHalts : Obligations.LoadPortCopiesOrHalts := by
  intro s offset hr hm
  refine ⟨load_unreadable hr offset, fun bytes => ⟨load_doesNotFit hr, fun fits => ?_⟩⟩
  rw [load_fits hr fits]
  exact ⟨fun _ _ => readMem_writeBytes_stored hm fits, fun _ => readMem_writeBytes_outside,
    writeBytes_wf hm fits, rfl⟩

/-! ### The fetch of stored code (R61) -/

/-- A fetch from memory of a word that decodes to nothing (R305). -/
theorem fetch_decodeError {s : State} (heven : s.pc.toNat % 2 = 0)
    (fits : s.pc.toNat + 2 ≤ Config.memSize) (hd : decode (readWord s.mem s.pc.toNat) = none) :
    s.fetch = .error (.decodeError (readWord s.mem s.pc.toNat) s.pc) := by
  have hb : boundsError s s.pc.toNat Config.insnBytes = none :=
    boundsError_eq_none.mpr (.inr fits)
  simp [State.fetch, heven, hb, hd]

/-- After the store of V0 to Vx at I, the word at `I + r` is V[r] and V[r + 1]. -/
theorem readWord_storedRegs {s : State} {x r : RegIdx} (hm : Memory.wf s.mem = true)
    (fits : s.i.toNat + (x.toNat + 1) ≤ Config.memSize) (hx : r.toNat + 1 ≤ x.toNat) :
    readWord (writeBytes s.mem s.i.toNat (s.regsUpTo x)) (s.i.toNat + r.toNat) =
      s.getV r ++ s.getV (r + 1) := by
  have hsucc : (r + 1).toNat = r.toNat + 1 := by
    have hlt : r.toNat + 1 < 16 := Nat.lt_of_le_of_lt hx x.isLt
    exact (BitVec.toNat_add r 1).trans (Nat.mod_eq_of_lt hlt)
  have hread : ∀ k : RegIdx, k.toNat ≤ x.toNat →
      readMem (writeBytes s.mem s.i.toNat (s.regsUpTo x)) (s.i.toNat + k.toNat) = s.getV k :=
    fun k hk => readMem_writeBytes_stored hm (by rwa [length_regsUpTo]) (getElem?_regsUpTo s hk)
  rw [readWord, Nat.add_assoc, ← hsucc, hread r (by omega), hread (r + 1) (by omega), wordOfBytes]

/-- Settles O46: the store completed, so the fetch is in range and reads the two registers. -/
theorem storedCodeIsFetched : Obligations.StoredCodeIsFetched := by
  intro s t x r a hm _ hexec ht hx ha heven
  rcases execLdMemVx_cases hexec with ⟨e, -, rfl⟩ | ⟨fits, rfl⟩
  · cases ht
  · have hfit : a.toNat + 2 ≤ Config.memSize := by omega
    have hword := readWord_storedRegs hm fits hx
    rw [← ha] at hword
    rw [← hword]
    split
    · next i hd => exact fetch_ok heven hfit hd
    · next hd => exact fetch_decodeError heven hfit hd

/-! ### The stores (R50) -/

/-- CALL, LD B, Vx and LD [I], Vx, each with the addresses it stores to. -/
def StoresAt (s : State) (i : Instr) (a : Nat) : Prop :=
  ((∃ nnn, i = .call nnn) ∧ s.sp.toNat + 2 ≤ a ∧ a ≤ s.sp.toNat + 3) ∨
    ((∃ x, i = .ldBVx x) ∧ s.i.toNat ≤ a ∧ a ≤ s.i.toNat + 2) ∨
    ∃ x, i = .ldMemVx x ∧ s.i.toNat ≤ a ∧ a ≤ s.i.toNat + x.toNat

theorem Change.storesAt_of_readMem_ne {s t : State} {i : Instr} {a : Nat} (h : Change s i t)
    (hne : readMem t.mem a ≠ readMem s.mem a) : StoresAt s i a := by
  cases h with
  | call nnn =>
    obtain ⟨hlo, hhi⟩ := range_of_readMem_writeBytes_ne hne
    rw [length_bytesOfWord] at hhi
    exact .inl ⟨⟨nnn, rfl⟩, hlo, by omega⟩
  | storeDigits x =>
    obtain ⟨hlo, hhi⟩ := range_of_readMem_writeBytes_ne hne
    exact .inr (.inl ⟨⟨x, rfl⟩, hlo, Nat.le_of_lt_succ hhi⟩)
  | storeRegisters x =>
    obtain ⟨hlo, hhi⟩ := range_of_readMem_writeBytes_ne hne
    rw [length_regsUpTo] at hhi
    exact .inr (.inr ⟨x, rfl, hlo, by omega⟩)
  | _ => exact absurd rfl hne

/-- Settles O59: of the changes, three store, each the bytes of its own range. -/
theorem memoryChangesOnlyWhereStored : Obligations.MemoryChangesOnlyWhereStored :=
  fun _ _ _ _ h => (exec_change h).storesAt_of_readMem_ne

end Sys2Proof.Machine

namespace Sys2Proof.Machine

/-! ### The stages of the decoder, by the leftmost nibble (R89) -/

section

variable {op : Word}

/-- Nibble 0 is in no table: the full word decides (R83, R88). -/
theorem decode_nibble0 (h : fieldO op = 0x0) : decode op = decodeStage1 op := by
  have h2 : decodeStage2 op = none := by simp [decodeStage2, h]
  have h3 : decodeStage3 op = none := by simp [decodeStage3, h]
  rw [decode, h2, h3]
  cases decodeStage1 op <;> rfl

/-- A word of another leftmost nibble is neither CLS nor RET (R83). -/
theorem decodeStage1_eq_none (h : fieldO op ≠ 0x0) : decodeStage1 op = none := by
  have hCls : op ≠ 0x00E0 := by rintro rfl; exact h (by decide)
  have hRet : op ≠ 0x00EE := by rintro rfl; exact h (by decide)
  rw [decodeStage1, if_neg hCls, if_neg hRet]

/-- Nibble 0xE is in no table of stage 3: the key skips decide (R84, R88). -/
theorem decode_nibbleE (h : fieldO op = 0xE) : decode op = decodeStage2 op := by
  have h1 : decodeStage1 op = none := decodeStage1_eq_none (by simp [h])
  have h3 : decodeStage3 op = none := by simp [decodeStage3, h]
  rw [decode, h1, h3]
  cases decodeStage2 op <;> rfl

/-- Every other nibble is left to stage 3 (R85 to R87). -/
theorem decode_eq_decodeStage3 (h0 : fieldO op ≠ 0x0) (hE : fieldO op ≠ 0xE) :
    decode op = decodeStage3 op := by
  rw [decode, decodeStage1_eq_none h0, decodeStage2, if_neg hE]

theorem decode_nibble8 (h : fieldO op = 0x8) : decode op = decode8 op := by
  rw [decode_eq_decodeStage3] <;> simp [decodeStage3, h]

theorem decode_nibbleF (h : fieldO op = 0xF) : decode op = decodeF op := by
  rw [decode_eq_decodeStage3] <;> simp [decodeStage3, h]

/-- The rightmost nibbles outside the 8 table (R86). -/
theorem decode8_eq_none (h : fieldN op ∈ [0x8, 0x9, 0xA, 0xB, 0xC, 0xD, 0xF]) :
    decode8 op = none := by
  simp only [List.mem_cons, List.not_mem_nil, or_false] at h
  rcases h with h | h | h | h | h | h | h <;> simp [decode8, h]

/-- The low bytes outside the F table (R87): each branch but the last needs a byte of the table. -/
theorem decodeF_eq_none
    (h : fieldKK op ∉ [0x07, 0x0A, 0x15, 0x18, 0x1E, 0x29, 0x33, 0x55, 0x65]) :
    decodeF op = none := by
  unfold decodeF
  split
  case h_10 => rfl
  all_goals
    next hk =>
      rw [BitVec.toNat_eq_nat] at hk
      simp [hk.2] at h

end

/-! ### The tables (R83 to R87) -/

/-- Settles O1, by evaluation of the eleven words. -/
theorem specWordsDecode : Obligations.SpecWordsDecode := by
  unfold Obligations.SpecWordsDecode
  decide

/-- Settles O2: nibble 0xE is stage 2's. -/
theorem fullWordAndKeySkipStages : Obligations.FullWordAndKeySkipStages := by
  refine ⟨by decide, by decide, fun op hE => ⟨?_, ?_⟩⟩ <;> intro hk <;>
    simp [decode_nibbleE hE, decodeStage2, hE, hk]

/-- Settles O3: stage 3 looks at the leftmost nibble alone. -/
theorem singlePurposeNibbleTable : Obligations.SinglePurposeNibbleTable := by
  intro op
  simp +contextual [decode_eq_decodeStage3, decodeStage3]

/-- Settles O4, by the table `decode8`. -/
theorem eightTable : Obligations.EightTable := by
  intro op h8
  rw [decode_nibble8 h8]
  refine ⟨?_, ?_, ?_, ?_, ?_, ?_, ?_, ?_, ?_, decode8_eq_none⟩ <;> intro hn <;>
    simp [decode8, hn]

/-- Settles O5, by the table `decodeF`. -/
theorem fTable : Obligations.FTable := by
  intro op hF
  rw [decode_nibbleF hF]
  refine ⟨?_, ?_, ?_, ?_, ?_, ?_, ?_, ?_, ?_, decodeF_eq_none⟩ <;> intro hk <;>
    simp [decodeF, hk]

/-! ### Decoding inverts encoding -/

/-- The fields of an encoded word select its own entry of its own table. -/
theorem decode_encode (i : Instr) : decode (encode i) = some i := by
  obtain ⟨hCls, hRet, hE⟩ := fullWordAndKeySkipStages
  have hO := singlePurposeNibbleTable
  have h8 := eightTable
  have hF := fTable
  unfold Obligations.SinglePurposeNibbleTable at hO
  unfold Obligations.EightTable at h8
  unfold Obligations.FTable at hF
  cases i with
  | cls => exact hCls
  | ret => exact hRet
  | skp | sknp => simp [encode, hE]
  | ldReg | orReg | andReg | xorReg | addReg | subReg | shr | subnReg | shl => simp [encode, h8]
  | ldVxDT | ldVxK | ldDTVx | ldSTVx | addIVx | ldFVx | ldBVx | ldMemVx | ldVxMem =>
    simp [encode, hF]
  | _ => simp [encode, hO]

theorem decodeBytes_bytesOfWord (op : Word) (rest : List Byte) :
    decodeBytes (bytesOfWord op ++ rest) = (decode op).map fun i => (i, rest) :=
  congrArg (fun w => (decode w).map fun i => (i, rest)) (wordOfBytes_bytesOfWord op)

/-- Settles O7: as bytes, by the round trip of a word through its two bytes. -/
theorem decodeInvertsEncode : Obligations.DecodeInvertsEncode := by
  intro i rest
  refine ⟨decode_encode i, ?_⟩
  rw [encodeBytes, decodeBytes_bytesOfWord, decode_encode, Option.map_some]

/-! ### The opcode map and the illegal words (R88, R90)

A word matches a row of the map, and then decodes to an instruction of that row, or it is one of
R88's, and then it decodes to nothing. O6 and O8 are both read off this. -/

/-- The word decodes to an instruction of row `k` of R90. -/
def DecodesToRow (op : Word) (k : Nat) : Prop := ∃ i, decode op = some i ∧ i.rowNumber = k

theorem DecodesToRow.unique {op : Word} {j k : Nat} (hj : DecodesToRow op j)
    (hk : DecodesToRow op k) : j = k := by
  obtain ⟨i, hi, rfl⟩ := hj
  obtain ⟨i', hi', rfl⟩ := hk
  rw [Option.some.inj (hi.symm.trans hi')]

theorem not_decodesToRow_of_none {op : Word} {k : Nat} (h : decode op = none) :
    ¬ DecodesToRow op k := by
  rintro ⟨i, hi, -⟩
  exact Option.some_ne_none i (hi.symm.trans h)

/-- No two rows of R90 have one number. -/
theorem opcodeRow_eq_of_number_eq :
    ∀ r ∈ opcodeRows, ∀ r' ∈ opcodeRows, r.number = r'.number → r = r' := by
  decide

/-- Mask 0xFFFF keeps the word. -/
theorem and_FFFF (op : Word) : op &&& 0xFFFF = op := and_ones op

/-- A word that matches a row has the fields of that row's entry in the tables. -/
theorem decodesToRow_of_selected (op : Word) :
    ∀ r ∈ opcodeRows, op &&& r.mask = r.pattern → DecodesToRow op r.number := by
  obtain ⟨hCls, hRet, hE⟩ := fullWordAndKeySkipStages
  replace hE := hE op
  have hO := singlePurposeNibbleTable op
  have h8 := eightTable op
  have hF := fTable op
  simp only [Laws.RowSelects.opcodeRows_eq, List.forall_mem_cons, and_FFFF, and_F000_eq,
    and_F0FF_eq, and_F00F_eq]
  refine ⟨?cls, ?ret, ?tables⟩
  case cls => rintro rfl; exact ⟨_, hCls, rfl⟩
  case ret => rintro rfl; exact ⟨_, hRet, rfl⟩
  case tables => simp +contextual [DecodesToRow, hO, h8, hF, hE, Instr.rowNumber]

/-- The leftmost nibbles by the table they lead to: none, stage 3's own, 8, E and F. -/
theorem leftNibble_cases (o : Nibble) :
    o = 0x0 ∨ o ∈ [0x1, 0x2, 0x3, 0x4, 0x5, 0x6, 0x7, 0x9, 0xA, 0xB, 0xC, 0xD] ∨
      o = 0x8 ∨ o = 0xE ∨ o = 0xF := by
  revert o; decide

/-- The rightmost nibbles in the 8 table and those outside it (R86). -/
theorem rightNibble_cases (n : Nibble) :
    n ∈ [0x0, 0x1, 0x2, 0x3, 0x4, 0x5, 0x6, 0x7, 0xE] ∨
      n ∈ [0x8, 0x9, 0xA, 0xB, 0xC, 0xD, 0xF] := by
  revert n; decide

/-- R88's list is complete: it holds every word that matches no row. -/
theorem illegalWord_of_unselected {op : Word}
    (h : ∀ r ∈ opcodeRows, op &&& r.mask ≠ r.pattern) : illegalWord op = true := by
  simp only [Laws.RowSelects.opcodeRows_eq, List.forall_mem_cons, ne_eq, and_FFFF, and_F000_eq,
    and_F0FF_eq, and_F00F_eq] at h
  rcases leftNibble_cases (fieldO op) with h0 | hO | h8 | hE | hF
  · simp_all [illegalWord]
  · simp_all
  · have hn := rightNibble_cases (fieldN op)
    simp_all [illegalWord]
  · simp_all [illegalWord]
  · simp_all [illegalWord]

/-- The words R88 lists under (a) to (d), as propositions. -/
theorem illegalWord_iff (op : Word) :
    illegalWord op = true ↔
      (fieldO op = 0x0 ∧ op ≠ 0x00E0 ∧ op ≠ 0x00EE) ∨
      (fieldO op = 0x8 ∧ fieldN op ∈ [0x8, 0x9, 0xA, 0xB, 0xC, 0xD, 0xF]) ∨
      (fieldO op = 0xE ∧ fieldKK op ≠ 0x9E ∧ fieldKK op ≠ 0xA1) ∨
      (fieldO op = 0xF ∧
        fieldKK op ∉ [0x07, 0x0A, 0x15, 0x18, 0x1E, 0x29, 0x33, 0x55, 0x65]) := by
  simp only [illegalWord, Bool.or_eq_true, Bool.and_eq_true, Bool.not_eq_true', beq_iff_eq,
    bne_iff_ne, ← Bool.not_eq_true, List.contains_iff_mem, or_assoc, and_assoc]

theorem decode_eq_none_of_illegalWord {op : Word} (h : illegalWord op = true) :
    decode op = none := by
  rcases (illegalWord_iff op).mp h with ⟨h0, hCls, hRet⟩ | ⟨h8, hn⟩ | ⟨hE, hSkp, hSknp⟩ | ⟨hF, hk⟩
  · rw [decode_nibble0 h0, decodeStage1, if_neg hCls, if_neg hRet]
  · rw [decode_nibble8 h8, decode8_eq_none hn]
  · rw [decode_nibbleE hE, decodeStage2, if_pos hE, if_neg hSkp, if_neg hSknp]
  · rw [decode_nibbleF hF, decodeF_eq_none hk]

theorem selected_or_illegalWord (op : Word) :
    (∃ r ∈ opcodeRows, op &&& r.mask = r.pattern) ∨ illegalWord op = true := by
  by_cases h : ∃ r ∈ opcodeRows, op &&& r.mask = r.pattern
  · exact .inl h
  · exact .inr (illegalWord_of_unselected fun r hr hsel => h ⟨r, hr, hsel⟩)

theorem decode_eq_none_iff (op : Word) : decode op = none ↔ illegalWord op = true := by
  refine ⟨fun hnone => ?_, decode_eq_none_of_illegalWord⟩
  rcases selected_or_illegalWord op with ⟨r, hr, hsel⟩ | hill
  · exact absurd (decodesToRow_of_selected op r hr hsel) (not_decodesToRow_of_none hnone)
  · exact hill

/-- Settles O6, by `decode_eq_none_iff` and the fetch of such a word. -/
theorem illegalWordsAreDecodeErrors : Obligations.IllegalWordsAreDecodeErrors := by
  refine ⟨fun op => (decode_eq_none_iff op).trans (illegalWord_iff op), ?_⟩
  intro s hr heven hpc hd
  have fits : s.pc.toNat + 2 ≤ Config.memSize := Nat.add_le_add_right hpc 2
  exact step_of_fetch_error hr (fetch_decodeError heven fits hd)

/-- Settles O8: a word of row `r` is not illegal, so it matches a row, and that row's number is
`r`'s. -/
theorem opcodeMapDecidesTheRow : Obligations.OpcodeMapDecidesTheRow := by
  intro op r hr
  refine ⟨decodesToRow_of_selected op r hr, fun hrow : DecodesToRow op r.number => ?_⟩
  rcases selected_or_illegalWord op with ⟨r', hr', hsel⟩ | hill
  · have hnum : r.number = r'.number := hrow.unique (decodesToRow_of_selected op r' hr' hsel)
    rwa [opcodeRow_eq_of_number_eq r hr r' hr' hnum]
  · exact absurd hrow (not_decodesToRow_of_none (decode_eq_none_of_illegalWord hill))

end Sys2Proof.Machine

namespace Sys2Proof.Machine

/-! ### Every execution and every running step answers a next state (R110) -/

theorem guard_answers (s : State) (o : Option FatalError) {r : Result} (h : ∃ t, r = .next t) :
    ∃ t, s.guard o r = .next t := by
  cases o with
  | none => exact h
  | some e => exact ⟨_, rfl⟩

theorem bindError_answers {α : Type} (s : State) (r : Except FatalError α) {ok : α → Result}
    (h : ∀ a, ∃ t, ok a = .next t) : ∃ t, s.bindError r ok = .next t := by
  cases r with
  | error e => exact ⟨_, rfl⟩
  | ok a => exact h a

/-- The errors of a meaning are those of a guard or of a stack operation; LD F, Vx checks its digit
itself. -/
theorem exec_answers (i : Instr) (s : State) : ∃ t, exec i s = .next t := by
  cases i with
  | cls | skp | sknp | ldVxK | ldBVx | ldMemVx | ldVxMem => exact guard_answers s _ ⟨_, rfl⟩
  | drw => exact guard_answers s _ (guard_answers s _ ⟨_, rfl⟩)
  | ret | call => exact bindError_answers s _ fun _ => ⟨_, rfl⟩
  | ldFVx x =>
    rcases Nat.lt_or_ge 0xF (s.getV x).toNat with h | h
    · exact ⟨_, execLdFVx_raise h⟩
    · exact ⟨_, execLdFVx_ok h⟩
  | _ => exact ⟨_, rfl⟩

/-- Settles O18: a running step takes a fetch error, or executes, and each answers. -/
theorem runningMachineAlwaysSteps : Obligations.RunningMachineAlwaysSteps := by
  refine ⟨exec_answers, fun s hr => ?_⟩
  cases hf : s.fetch with
  | error e => exact ⟨_, step_of_fetch_error hr hf⟩
  | ok i =>
    obtain ⟨u, hu⟩ := exec_answers i s
    exact ⟨_, step_of_fetch_ok hr hf hu⟩

/-! ### What follows an execution, one equation for each case (R117, R118) -/

section

variable {s t : State} {i : Instr}

theorem afterExec_halted {e : FatalError} (ht : t.status = .halted e) : s.afterExec i t = t := by
  simp only [State.afterExec, ht]

theorem afterExec_stalled (ht : t.status = .running) (hs : s.stalls i = true) :
    s.afterExec i t = t := by
  simp only [State.afterExec, ht, hs, if_true]

theorem afterExec_completed (ht : t.status = .running) (hs : s.stalls i = false) :
    s.afterExec i t = t.countStep := by
  simp [State.afterExec, ht, hs]

end

/-- Settles O15: the word at PC is fetched, and each clause is a case of `afterExec`. -/
theorem stepRunsTheDecodedInstruction : Obligations.StepRunsTheDecodedInstruction := by
  intro s t i hr heven hpc hd hexec
  have fits : s.pc.toNat + 2 ≤ Config.memSize := Nat.add_le_add_right hpc 2
  have hstep : step s = .next (s.afterExec i t) :=
    step_of_fetch_ok hr (fetch_ok heven fits hd) hexec
  refine ⟨fun e ht => ?_, fun ht hs => ?_, fun ht hs => ?_⟩
  · rw [hstep, afterExec_halted ht]
  · rw [hstep, afterExec_stalled ht hs]
  · rw [hstep, afterExec_completed ht hs, State.countStep]

/-! ### The halted machine (R111) -/

section

variable {s : State} {e : FatalError}

theorem step_halted (h : s.status = .halted e) : step s = .fault (.haltedMachine e) := by
  simp only [step, h]

theorem load_halted (h : s.status = .halted e) (src : Option (List Byte)) (offset : Nat) :
    s.load src offset = s := by
  simp only [State.load, h]

theorem tickTimersPort_halted (h : s.status = .halted e) : s.tickTimersPort = s := by
  simp only [State.tickTimersPort, h]

end

/-- Settles O16: each operation of R110 looks at the status first. -/
theorem haltedMachineDoesNothing : Obligations.HaltedMachineDoesNothing :=
  fun _ _ h => ⟨step_halted h, load_halted h, tickTimersPort_halted h⟩

/-! ### The errors change the status alone (R115) -/

/-- Of the changes, only `Change.raise` touches the status, and it touches nothing else. -/
theorem Change.status_eq_or_precise {s t : State} {i : Instr} (h : Change s i t) :
    t.status = s.status ∨ t = { s with status := t.status } := by
  cases h with
  | raise => exact .inr rfl
  | _ => exact .inl rfl

/-- An execution that raises changes the status alone. -/
theorem exec_raise_precise {s t : State} {i : Instr} (hr : s.status = .running)
    (h : exec i s = .next t) (ht : t.status ≠ .running) : t = { s with status := t.status } :=
  (exec_change h).status_eq_or_precise.resolve_left fun hst => ht (hst.trans hr)

/-- Settles O19: the error of a step is the fetch's, or that of an execution, which the run loop
does not count. -/
theorem errorsArePrecise : Obligations.ErrorsArePrecise := by
  refine ⟨fun i s t => exec_raise_precise, fun s t h ht => ?_⟩
  obtain ⟨hr, ⟨e, -, rfl⟩ | ⟨i, u, -, hu, rfl⟩⟩ := step_cases h
  · rfl
  · rw [status_afterExec] at ht
    cases hst : u.status with
    | running => exact absurd hst ht
    | halted e =>
      rw [afterExec_halted hst]
      exact exec_raise_precise hr hu ht

/-! ### The next PC (R114) -/

/-- `t` is where instruction `i` at `s` goes on: past it, or, for a skip, past the next one too. -/
def GoesOn (s : State) (i : Instr) (t : State) : Prop :=
  t.pc = s.pc + 2 ∨ (i.isSkip = true ∧ t.pc = s.pc + 4)

theorem goesOn_skipIf (s : State) {i : Instr} (c : Bool) (hi : i.isSkip = true) :
    GoesOn s i (s.skipIf c) := by
  cases c with
  | false => exact .inl rfl
  | true => exact .inr ⟨hi, rfl⟩

/-- A completed execution of an instruction that is no transfer. -/
theorem exec_goesOn {s t : State} {i : Instr} (h : exec i s = .next t) (ht : t.status = .running)
    (hi : i.isTransfer = false) (hs : s.stalls i = false) : GoesOn s i t := by
  cases i with
  | ret | jp | call | jpV0 => cases hi
  | seImm | sneImm | seReg | sneReg => cases h; exact goesOn_skipIf s _ rfl
  | skp | sknp =>
    rcases guard_next h with ⟨e, -, rfl⟩ | ⟨-, hn⟩
    · cases ht
    · cases hn; exact goesOn_skipIf s.takeKbd _ rfl
  | cls | ldBVx | ldMemVx | ldVxMem =>
    rcases guard_next h with ⟨e, -, rfl⟩ | ⟨-, hn⟩
    · cases ht
    · cases hn; exact .inl rfl
  | drw =>
    rcases execDrw_cases h with ⟨-, rfl⟩ | ⟨e, -, -, rfl⟩ | ⟨-, -, rfl⟩
    · cases ht
    · cases ht
    · exact .inl rfl
  | ldVxK =>
    rcases execLdVxK_cases h with ⟨-, rfl⟩ | ⟨ha, hk, -⟩ | ⟨k, -, -, rfl⟩
    · cases ht
    · simp [State.stalls, ha, hk] at hs
    · exact .inl rfl
  | ldFVx =>
    rcases execLdFVx_cases h with ⟨-, rfl⟩ | ⟨-, rfl⟩
    · cases ht
    · exact .inl rfl
  | rnd => cases h; exact .inl (congrArg (· + 2) (pc_takeRnd s))
  | _ => cases h; exact .inl rfl

/-- Settles O22: each meaning but a transfer's advances or skips where it completes. -/
theorem nextPcIsOneOrTwoInstructionsOn : Obligations.NextPcIsOneOrTwoInstructionsOn :=
  fun _ _ _ h _ ht hi hs => exec_goesOn h ht hi hs

/-! ### The count of completed steps (R117, R118) -/

/-- A stall is a key wait with no key, and leaves all but the answer used up (R116). -/
theorem exec_stalled {s : State} {i : Instr} (h : s.stalls i = true) :
    exec i s = .next s.takeKbd := by
  cases i with
  | ldVxK x =>
    simp only [State.stalls, Bool.and_eq_true, Option.isNone_iff_eq_none] at h
    obtain ⟨ha, hk⟩ := h
    exact execLdVxK_stall ha hk
  | _ => cases h

/-- How a step that fetched `i` at `s` ends: in an error, in a stall, or completed and counted. -/
inductive StepEnd (s : State) (i : Instr) : State → Prop where
  | raised (e : FatalError) : StepEnd s i { s with status := .halted e }
  | stalled (stall : s.stalls i = true) : StepEnd s i s.takeKbd
  | completed (u : State) (executed : exec i s = .next u) (running : u.status = .running)
      (noStall : s.stalls i = false) : StepEnd s i u.countStep

theorem stepEnd_of_fetch {s t : State} {i : Instr} (hf : s.fetch = .ok i) (h : step s = .next t) :
    StepEnd s i t := by
  obtain ⟨hr, ⟨e, he, -⟩ | ⟨j, u, hj, hu, rfl⟩⟩ := step_cases h
  · rw [hf] at he; cases he
  · obtain rfl : i = j := Except.ok.inj (hf.symm.trans hj)
    rcases afterExec_cases s i u with ⟨e, hhalt, ht⟩ | ⟨-, hstall, ht⟩ | ⟨hrun, hgo, ht⟩ <;>
      rw [ht]
    · rw [exec_raise_precise hr hu (by simp [hhalt]), hhalt]
      exact .raised e
    · obtain rfl : s.takeKbd = u := Host.Outcome.next.inj ((exec_stalled hstall).symm.trans hu)
      exact .stalled hstall
    · exact .completed u hu hrun hgo

theorem tick_countStep (s : State) :
    s.countStep.tick = if s.tick + 1 = s.cfg.timerDivider then 0 else s.tick + 1 := by
  unfold State.countStep
  split <;> rfl

/-- Settles O23: the execution keeps `tick` and N, so the count is the step's own. -/
theorem onlyCompletedStepsCount : Obligations.OnlyCompletedStepsCount := by
  intro s t i _ hf h
  cases stepEnd_of_fetch hf h with
  | raised e => exact ⟨(fun hrun => nomatch hrun), fun _ => ⟨rfl, rfl, rfl⟩⟩
  | stalled stall =>
    exact ⟨fun _ hgo => absurd (stall.symm.trans hgo) (by decide), fun _ => ⟨rfl, rfl, rfl⟩⟩
  | completed u hu hrun hgo =>
    refine ⟨fun _ _ => ?_, fun hno => ?_⟩
    · rw [tick_countStep, (exec_change hu).tick, (exec_change hu).cfg]
    · rcases hno with hstall | hhalt
      · exact absurd (hstall.symm.trans hgo) (by decide)
      · exact absurd ((status_countStep u).trans hrun) hhalt

end Sys2Proof.Machine

namespace Sys2Proof.Machine

/-! ### The jumps and the register skips (R143, R145 to R149) -/

/-- A jump changes PC alone. -/
theorem sameBut_jump (s : State) (w : Word) : SameBut s (s.jump w) [] :=
  ⟨fun _ _ => rfl, fun _ => rfl, rfl, rfl, ⟨rfl, rfl⟩, rfl, rfl, rfl, rfl, rfl⟩

theorem givesPc_jump {s : State} {target pc : Word} (h : target = pc) :
    GivesPc (.next (s.jump target)) s pc :=
  ⟨_, rfl, h, sameBut_jump s target⟩

/-- A skip is a jump past the instruction, or past the next one too. -/
theorem givesPc_skipIf {s : State} {c : Bool} {pc : Word} (h : (s.skipIf c).pc = pc) :
    GivesPc (.next (s.skipIf c)) s pc :=
  givesPc_jump h

theorem pc_skipIf_beq (s : State) (a b : Byte) :
    (s.skipIf (a == b)).pc = if a = b then s.pc + 4 else s.pc + 2 := by
  simp only [pc_skipIf, beq_iff_eq]

theorem pc_skipIf_bne (s : State) (a b : Byte) :
    (s.skipIf (a != b)).pc = if a = b then s.pc + 2 else s.pc + 4 := by
  simp only [pc_skipIf, bne_iff_ne, ne_eq, ite_not]

theorem addrWord_eq (nnn : Addr) : addrWord nnn = BitVec.ofNat 16 nnn.toNat :=
  (BitVec.ofNat_toNat 16 nnn).symm

theorem offsetTarget_eq (s : State) (nnn : Addr) :
    s.offsetTarget nnn = BitVec.ofNat 16 (nnn.toNat + (s.getV 0x0).toNat) := by
  rw [State.offsetTarget, BitVec.ofNat_add, BitVec.ofNat_toNat, BitVec.ofNat_toNat, addrWord,
    byteWord]

/-- Settles O28: both are jumps, and a 12-bit number plus a byte stays below 2^16. -/
theorem jumpsSetPc : Obligations.JumpsSetPc := by
  intro s nnn
  refine ⟨givesPc_jump (addrWord_eq nnn), givesPc_jump (offsetTarget_eq s nnn), ?_⟩
  have hnnn := nnn.isLt
  have hv := (s.getV 0x0).isLt
  omega

/-- Settles O29: SE skips on equal values, SNE on different ones. -/
theorem registerSkips : Obligations.RegisterSkips :=
  fun s _ _ _ => ⟨givesPc_skipIf (pc_skipIf_beq s _ _), givesPc_skipIf (pc_skipIf_bne s _ _),
    givesPc_skipIf (pc_skipIf_beq s _ _), givesPc_skipIf (pc_skipIf_bne s _ _)⟩

/-! ### CALL (R140, R144) -/

/-- The high byte of a word, then its low byte, as numbers (R51). -/
theorem bytesOfWord_eq (w : Word) :
    bytesOfWord w = [BitVec.ofNat 8 (w.toNat / 256), BitVec.ofNat 8 (w.toNat % 256)] := by
  have hhi : w.extractLsb' 8 8 = BitVec.ofNat 8 (w.toNat / 256) := by
    rw [BitVec.extractLsb', Nat.shiftRight_eq_div_pow]
  have hlo : w.extractLsb' 0 8 = BitVec.ofNat 8 (w.toNat % 256) :=
    BitVec.eq_of_toNat_eq (by simp)
  rw [bytesOfWord, hhi, hlo]

/-- A slot up to `SP_MAX` lies in memory whole, when the parameters are well formed (R6, R140). -/
theorem slot_fits {s : State} (hp : s.cfg.wellFormed = true)
    (room : s.sp.toNat + 2 ≤ s.cfg.spMax) : s.sp.toNat + 4 ≤ Config.memSize := by
  obtain ⟨-, -, -, hmax, -, -⟩ := (wellFormed_iff s.cfg).mp hp
  show s.sp.toNat + 4 ≤ 4096
  omega

/-- SP of a push does not wrap where the slot lies in memory. -/
theorem toNat_pushedSp {s : State} (fits : s.sp.toNat + 4 ≤ Config.memSize) :
    (BitVec.ofNat 16 (s.sp.toNat + 2)).toNat = s.sp.toNat + 2 := by
  rw [Config.memSize] at fits
  exact (BitVec.toNat_ofNat ..).trans (Nat.mod_eq_of_lt (by omega))

theorem execCall_overflow {s : State} (nnn : Addr) (h : s.cfg.spMax < s.sp.toNat + 2) :
    Raises (execCall nnn s) s (.stackOverflow s.pc s.sp) := by
  rw [Raises, execCall, push_overflow _ h, bindError_error]

/-- Settles O30: the push stores the two bytes of the address after the call at the new SP. -/
theorem callPushesTheReturnAddress : Obligations.CallPushesTheReturnAddress := by
  refine fun s nnn => ⟨fun hm hp room => ?_, execCall_overflow nnn⟩
  have fits := slot_fits hp room
  have hpushed : ∀ k b, (bytesOfWord (s.pc + 2))[k]? = some b →
      readMem (writeWord s.mem (s.sp.toNat + 2) (s.pc + 2)) (s.sp.toNat + 2 + k) = b :=
    fun _ _ => readMem_writeBytes_stored hm fits
  rw [bytesOfWord_eq] at hpushed
  exact ⟨_, execCall_ok nnn room fits, toNat_pushedSp fits, hpushed 0 _ rfl, hpushed 1 _ rfl,
    addrWord_eq nnn, fun _ hout => readMem_writeBytes_outside hout, fun _ _ => rfl, rfl,
    ⟨rfl, rfl⟩, rfl, rfl, rfl, rfl, rfl⟩

/-! ### RET (R141, R142) -/

theorem execRet_underflow {s : State} (h : s.sp.toNat = s.cfg.spEmpty) :
    Raises (execRet s) s (.stackUnderflow s.pc s.sp) := by
  rw [Raises, execRet, pop_underflow h, bindError_error]

/-- SP of a pop does not wrap from 2 up. -/
theorem toNat_poppedSp {sp : Word} (h : 2 ≤ sp.toNat) : (sp - 2).toNat + 2 = sp.toNat := by
  bv_omega

/-- Settles O31: the pop reads the word at SP, its high byte first, and stores nothing. -/
theorem returnPopsPc : Obligations.ReturnPopsPc := by
  refine fun s => ⟨fun hne hlo hhi => ?_, execRet_underflow⟩
  have fits : s.sp.toNat + 2 ≤ Config.memSize := Nat.add_le_add_right hhi 2
  exact ⟨_, execRet_ok hne fits, toNat_wordOfBytes _ _, toNat_poppedSp hlo, fun _ => rfl,
    fun _ _ => rfl, rfl, ⟨rfl, rfl⟩, rfl, rfl, rfl, rfl, rfl⟩

/-! ### The round trip (R142) -/

/-- The slot above a legal SP is an entry, so the stack is not empty there (R27). -/
theorem pushedSp_nonempty {s : State} (hp : s.cfg.wellFormed = true) (h : s.stackOk = true) :
    s.sp.toNat + 2 ≠ s.cfg.spEmpty := by
  obtain ⟨-, -, hbase, -, -, -⟩ := (wellFormed_iff s.cfg).mp hp
  rw [stackOk_iff] at h
  unfold Params.spEmpty at h ⊢
  omega

/-- A pop takes SP back to where it was before a push. -/
theorem pushedSp_sub_two (sp : Word) : BitVec.ofNat 16 (sp.toNat + 2) - 2 = sp := by
  bv_omega

/-- Settles O32: the call stored the return address in the slot of the new SP, and the return pops
the same slot. -/
theorem returnComesBackFromCall : Obligations.ReturnComesBackFromCall := by
  intro s t u nnn hs _ hcall ht hcfg hsp hhi hlo
  obtain ⟨hp, hm, hst, -, -, -⟩ := (inv_iff s).mp hs
  rcases execCall_cases hcall with ⟨e, -, rfl⟩ | ⟨-, fits, rfl⟩
  · cases ht
  have htop : u.sp.toNat = s.sp.toNat + 2 := hsp ▸ toNat_pushedSp fits
  have hne : u.sp.toNat ≠ u.cfg.spEmpty := by
    rw [htop, hcfg]
    exact pushedSp_nonempty hp hst
  have hword : readWord u.mem u.sp.toNat = s.pc + 2 := by
    rw [readWord, hsp, hhi, hlo, ← readWord, toNat_pushedSp fits, readWord_writeWord hm fits]
  have hback : u.sp - 2 = s.sp := hsp ▸ pushedSp_sub_two s.sp
  exact ⟨_, execRet_ok hne (htop ▸ fits), hword, hback, fun _ _ => rfl, fun _ => rfl⟩

/-! ### Bad targets (R150) -/

/-- An odd PC, in memory or beyond it, fetches nothing (R54, R304). -/
theorem fetch_misaligned {s : State} (hodd : s.pc.toNat % 2 = 1) :
    s.fetch = .error (.misalignedFetch s.pc) :=
  if_pos hodd

/-- An even PC beyond the last word of memory fetches nothing, and is itself the bad address
(R53, R304). -/
theorem fetch_beyondMemory {s : State} (heven : s.pc.toNat % 2 = 0) (h : 0xFFE < s.pc.toNat) :
    s.fetch = .error (.memoryBounds s.pc s.pc) := by
  have hbad : BitVec.ofNat 16 (max s.pc.toNat Config.memSize) = s.pc :=
    (badAddr_eq s.pc).trans (if_neg (by omega))
  have hb : boundsError s s.pc.toNat Config.insnBytes = some (.memoryBounds s.pc s.pc) :=
    boundsError_eq_some.mpr ⟨by decide, Nat.add_lt_add_right h 2, by rw [hbad]⟩
  simp [State.fetch, heven, hb]

/-- What follows an execution leaves the PC the execution set. -/
@[simp] theorem pc_afterExec (s : State) (i : Instr) (t : State) :
    (s.afterExec i t).pc = t.pc := by
  rcases afterExec_cases s i t with ⟨e, -, h⟩ | ⟨-, -, h⟩ | ⟨-, -, h⟩ <;> rw [h]
  exact pc_countStep t

/-- Settles O33: the step leaves the execution's PC in a running state, and the next fetch checks
it. -/
theorem badTargetsHaltAtTheNextFetch : Obligations.BadTargetsHaltAtTheNextFetch := by
  intro i s t u _ hr hf hexec ht hstep
  obtain rfl : s.afterExec i t = u :=
    Host.Outcome.next.inj ((step_of_fetch_ok hr hf hexec).symm.trans hstep)
  have hpc : (s.afterExec i t).pc = t.pc := pc_afterExec s i t
  have hrun : (s.afterExec i t).status = .running := (status_afterExec s i t).trans ht
  rw [← hpc]
  exact ⟨rfl, fun hodd => step_of_fetch_error hrun (fetch_misaligned hodd),
    fun heven hbig => step_of_fetch_error hrun (fetch_beyondMemory heven hbig)⟩

end Sys2Proof.Machine

namespace Sys2Proof.Machine

/-! ### A register result, with or without a flag -/

/-- A register write changes that register, and the advance changes PC. -/
theorem sameBut_setV_advance (s : State) (x : RegIdx) (b : Byte) :
    SameBut s (s.setV x b).advance [x] :=
  ⟨fun r hr => getV_setV_of_ne s x r b fun h => hr (List.mem_singleton.mpr h), fun _ => rfl, rfl,
    rfl, ⟨rfl, rfl⟩, rfl, rfl, rfl, rfl, rfl⟩

theorem givesRegister_setV {s : State} {x : RegIdx} {b v : Byte} (h : b = v) :
    GivesRegister (.next (s.setV x b).advance) s x v :=
  ⟨_, rfl, rfl, (getV_setV_same s x b).trans h, sameBut_setV_advance s x b⟩

/-- A flag and then a destination: all but the two registers and PC stays. -/
theorem sameBut_flagThenDest_advance (s : State) (x : RegIdx) (f b : Byte) :
    SameBut s (s.flagThenDest x f b).advance [x, Config.flagReg] := by
  refine ⟨fun r hr => ?_, fun _ => rfl, rfl, rfl, ⟨rfl, rfl⟩, rfl, rfl, rfl, rfl, rfl⟩
  simp only [List.mem_cons, List.not_mem_nil, or_false, not_or] at hr
  obtain ⟨hx, hflag⟩ := hr
  rw [getV_advance, getV_flagThenDest, if_neg hx, if_neg hflag]

/-- The destination is written last, so it holds the result, and VF the flag where it is another
register (R24). -/
theorem givesRegisterAndFlag_flagThenDest {s : State} {x : RegIdx} {f b v flag : Byte}
    (hv : b = v) (hf : f = flag) :
    GivesRegisterAndFlag (.next (s.flagThenDest x f b).advance) s x v flag := by
  refine ⟨_, rfl, rfl, ?_, fun hx => ?_, sameBut_flagThenDest_advance s x f b⟩
  · rw [getV_advance, getV_flagThenDest, if_pos rfl, hv]
  · rw [getV_advance, getV_flagThenDest, if_neg hx.symm, if_pos rfl, hf]

/-! ### The truncated operations and their flags as numbers (R170) -/

theorem byte_add_eq (a b : Byte) : a + b = BitVec.ofNat 8 ((a.toNat + b.toNat) % 256) :=
  BitVec.eq_of_toNat_eq (by simp)

/-- A difference does not fall below 0 with 256 added first. -/
theorem byte_sub_eq (a b : Byte) : a - b = BitVec.ofNat 8 ((a.toNat + 256 - b.toNat) % 256) := by
  bv_omega

theorem byte_shiftRight_one (a : Byte) : a >>> 1 = BitVec.ofNat 8 (a.toNat / 2) := by
  bv_omega

theorem byte_shiftLeft_one (a : Byte) : a <<< 1 = BitVec.ofNat 8 (2 * a.toNat % 256) := by
  bv_omega

theorem flagByte_decide (p : Prop) [Decidable p] : flagByte (decide p) = if p then 1 else 0 := by
  simp only [flagByte, decide_eq_true_eq]

/-- The lowest bit is the remainder by 2 (R179). -/
theorem shiftedOutRight_eq (a : Byte) : shiftedOutRight a = BitVec.ofNat 8 (a.toNat % 2) := by
  have hbit : a.getLsbD 0 = decide (a.toNat % 2 = 1) := Nat.testBit_zero a.toNat
  rw [shiftedOutRight, hbit, flagByte_decide]
  rcases Nat.mod_two_eq_zero_or_one a.toNat with h | h <;> rw [h] <;> rfl

/-- The highest bit is the quotient by 128 (R181). -/
theorem shiftedOutLeft_eq (a : Byte) : shiftedOutLeft a = BitVec.ofNat 8 (a.toNat / 128) := by
  have hbit : a.getLsbD 7 = decide (128 ≤ a.toNat) := BitVec.msb_eq_decide a
  have hlt : a.toNat < 256 := a.isLt
  rw [shiftedOutLeft, hbit, flagByte_decide]
  split
  · next h => rw [show a.toNat / 128 = 1 by omega]; rfl
  · next h => rw [show a.toNat / 128 = 0 by omega]; rfl

/-! ### The ALU instructions (R171 to R181) -/

/-- Settles O37: both are a flag and then a difference, SUBN with the operands swapped. -/
theorem subtractBothWays : Obligations.SubtractBothWays :=
  fun _ _ _ => ⟨givesRegisterAndFlag_flagThenDest (byte_sub_eq _ _) (flagByte_decide _),
    givesRegisterAndFlag_flagThenDest (byte_sub_eq _ _) (flagByte_decide _)⟩

/-- Settles O38: the 8 table gives both words no y, and each shift is a flag and then the shifted
value. -/
theorem shiftsByOne : Obligations.ShiftsByOne := by
  refine ⟨fun op h8 => ?_, fun s x => ⟨?_, ?_⟩⟩
  · obtain ⟨-, -, -, -, -, -, hshr, -, hshl, -⟩ := eightTable op h8
    exact ⟨hshr, hshl⟩
  · exact givesRegisterAndFlag_flagThenDest (byte_shiftRight_one _) (shiftedOutRight_eq _)
  · exact givesRegisterAndFlag_flagThenDest (byte_shiftLeft_one _) (shiftedOutLeft_eq _)

/-- Settles O34: each is one register write. -/
theorem loadsAndAddConstant : Obligations.LoadsAndAddConstant :=
  fun _ _ _ _ => ⟨givesRegister_setV rfl, givesRegister_setV (byte_add_eq _ _),
    givesRegister_setV rfl⟩

/-- Settles O35, with the three bitwise results of the operands. -/
theorem bitwiseOperations : Obligations.BitwiseOperations := by
  intro s x y
  refine ⟨s.getV x ||| s.getV y, s.getV x &&& s.getV y, s.getV x ^^^ s.getV y,
    fun _ => BitVec.getLsbD_or, fun _ => BitVec.getLsbD_and, fun _ => BitVec.getLsbD_xor,
    givesRegister_setV rfl, givesRegister_setV rfl, givesRegister_setV rfl, ?_⟩
  rintro rfl
  exact ⟨BitVec.or_self, BitVec.and_self, BitVec.xor_self⟩

/-- Settles O36: the carry and then the sum. -/
theorem addWithCarryOut : Obligations.AddWithCarryOut :=
  fun _ _ _ => givesRegisterAndFlag_flagThenDest (byte_add_eq _ _) (flagByte_decide _)

/-! ### RND (R182, R183) -/

section

variable {s : State}

theorem rnd_deterministic (h : s.cfg.deterministic = true) : s.rnd = 0xFF := if_pos h

theorem takeRnd_deterministic (h : s.cfg.deterministic = true) : s.takeRnd = s := if_pos h

theorem rnd_drawn (h : s.cfg.deterministic = false) : s.rnd = s.inputs.nextByte := by
  simp [State.rnd, h]

theorem takeRnd_drawn (h : s.cfg.deterministic = false) :
    s.takeRnd = { s with inputs := s.inputs.takeByte } := by
  simp [State.takeRnd, h]

end

/-- Settles O39: RND is a register write after the draw, and the draw changes the inputs alone. -/
theorem randomAnd : Obligations.RandomAnd := by
  intro s x kk
  have hres : (s.takeRnd.setV x (s.rnd &&& kk)).advance.getV x = s.rnd &&& kk :=
    getV_setV_same s.takeRnd x _
  obtain ⟨hframe, -⟩ := sameBut_setV_advance s.takeRnd x (s.rnd &&& kk)
  refine ⟨_, rfl, congrArg (· + 2) (pc_takeRnd s), fun h => ⟨?det, ?detInputs⟩,
    fun h => ⟨?drawn, ?drawnInputs⟩, ?mask0, fun r hr => (hframe r hr).trans (getV_takeRnd s r),
    fun a => congrArg (readMem · a) (mem_takeRnd s), i_takeRnd s, sp_takeRnd s,
    ⟨dt_takeRnd s, st_takeRnd s⟩, display_takeRnd s, cfg_takeRnd s, tick_takeRnd s,
    status_takeRnd s⟩
  case det =>
    rw [hres, rnd_deterministic h]
    exact BitVec.allOnes_and
  case detInputs => rw [inputs_advance, inputs_setV, takeRnd_deterministic h]
  case drawn => rw [hres, rnd_drawn h]
  case drawnInputs => rw [inputs_advance, inputs_setV, takeRnd_drawn h]
  case mask0 =>
    rintro rfl
    rw [hres]
    exact BitVec.and_zero

end Sys2Proof.Machine

namespace Sys2Proof.Machine

/-! ### The address register and memory (R210 to R215)

Each of these instructions writes one field of the state and advances. With that field put back, the
state it leaves is that of a jump to the next instruction, so every frame here is `sameBut_jump`. -/

/-! ### An access at I (R53, R213 to R215) -/

/-- An access at I that ends beyond memory raises `MemoryBounds` at its first address above 0xFFF,
whatever was to follow it. -/
theorem raises_outOfRange {s : State} {n : Nat} (ok : Result) (hn : n ≠ 0)
    (h : Config.memSize < s.i.toNat + n) :
    Raises (s.guard (boundsError s s.i.toNat n) ok) s
      (.memoryBounds s.pc (if s.i.toNat ≤ 0xFFF then 0x1000 else s.i)) := by
  rw [Raises, boundsError_eq_some.mpr ⟨hn, h, rfl⟩, badAddr_eq, guard_some]

/-! ### LD B, Vx (R213) -/

/-- A digit stored at I is the number read at its address. -/
theorem toNat_readMem_storedDigit {s : State} {b : Byte} {k n : Nat} (hm : Memory.wf s.mem = true)
    (fits : s.i.toNat + 3 ≤ Config.memSize) (hk : (bcdDigits b)[k]? = some (BitVec.ofNat 8 n))
    (hn : n < 256) :
    (readMem (writeBytes s.mem s.i.toNat (bcdDigits b)) (s.i.toNat + k)).toNat = n := by
  rw [readMem_writeBytes_stored hm fits hk]
  exact (BitVec.toNat_ofNat ..).trans (Nat.mod_eq_of_lt hn)

/-- Settles O41: the three digits are stored at I, where they fit. -/
theorem bcdStoresThreeDigits : Obligations.BcdStoresThreeDigits := by
  refine fun s x hm => ⟨fun inRange => ?_,
    fun out => raises_outOfRange _ (by decide) (Nat.succ_lt_succ out)⟩
  have fits : s.i.toNat + 3 ≤ Config.memSize := Nat.succ_le_succ inRange
  have hlt := (s.getV x).isLt
  exact ⟨_, execLdBVx_ok x fits,
    toNat_readMem_storedDigit (k := 0) hm fits rfl (by omega),
    toNat_readMem_storedDigit hm fits rfl (by omega),
    toNat_readMem_storedDigit hm fits rfl (by omega),
    fun _ hout => readMem_writeBytes_outside hout, rfl, sameBut_jump s _⟩

/-! ### LD [I], Vx and LD Vx, [I] (R214, R215) -/

/-- After the store of V0 to Vx at I, the byte at `I + r` is V[r]. -/
theorem readMem_storedRegs {s : State} {x r : RegIdx} (hm : Memory.wf s.mem = true)
    (fits : s.i.toNat + (x.toNat + 1) ≤ Config.memSize) (hr : r.toNat ≤ x.toNat) :
    readMem (writeBytes s.mem s.i.toNat (s.regsUpTo x)) (s.i.toNat + r.toNat) = s.getV r :=
  readMem_writeBytes_stored hm (by rwa [length_regsUpTo]) (getElem?_regsUpTo s hr)

/-- Settles O42: the bytes stored at I are V0 to Vx, where they fit. -/
theorem blockStoreRegisters : Obligations.BlockStoreRegisters := by
  refine fun s x hm => ⟨fun inRange => ?_,
    fun out => raises_outOfRange _ (Nat.succ_ne_zero _) (Nat.succ_lt_succ out)⟩
  have fits : s.i.toNat + (x.toNat + 1) ≤ Config.memSize := Nat.succ_le_succ inRange
  exact ⟨_, execLdMemVx_ok x fits, fun _ => readMem_storedRegs hm fits,
    fun _ hout => readMem_writeBytes_outside (by rwa [length_regsUpTo]), rfl,
    sameBut_jump s _⟩

/-- Settles O43: V0 to Vx are the bytes from I, where these lie in memory, and a register above x
is no part of the load. -/
theorem blockLoadRegisters : Obligations.BlockLoadRegisters := by
  refine fun s x => ⟨fun inRange => ?_,
    fun out => raises_outOfRange _ (Nat.succ_ne_zero _) (Nat.succ_lt_succ out)⟩
  exact ⟨_, execLdVxMem_ok x (Nat.succ_le_succ inRange),
    fun r hr => (get_loadUpTo s x r).trans (if_pos hr),
    fun r hr => (get_loadUpTo s x r).trans (if_neg (Nat.not_le.mpr hr)), rfl,
    sameBut_jump s _⟩

/-- Settles O44: the store completed, so the load at the same I is in range, and each byte it reads
is the register stored there. -/
theorem blockRoundTrip : Obligations.BlockRoundTrip := by
  intro s t u x hm _ hstore ht hmem hi
  rcases execLdMemVx_cases hstore with ⟨e, -, rfl⟩ | ⟨fits, rfl⟩
  · cases ht
  · replace hi : u.i = s.i := hi
    obtain ⟨w, hload, hloaded, habove, -⟩ :=
      (blockLoadRegisters u x).1 (hi ▸ Nat.le_of_succ_le_succ fits)
    refine ⟨w, hload, fun r hr => ?_, habove⟩
    rw [hloaded r hr, hmem, hi]
    exact readMem_storedRegs hm fits hr

/-! ### The instructions that write I (R210 to R212) -/

/-- Settles O40: each is a write of I, and LD F, Vx raises above 0xF. -/
theorem settingTheAddressRegister : Obligations.SettingTheAddressRegister := by
  refine fun s nnn x => ⟨⟨_, rfl, ?ldI, rfl, sameBut_jump s _⟩,
    ⟨_, rfl, ?addI, rfl, sameBut_jump s _⟩,
    fun digit => ⟨_, execLdFVx_ok digit, BitVec.toNat_ofNat .., rfl, sameBut_jump s _⟩,
    execLdFVx_raise⟩
  case ldI => exact BitVec.toNat_setWidth_of_le (by decide)
  case addI =>
    rw [i_advance, BitVec.toNat_add, byteWord, BitVec.toNat_setWidth_of_le (by decide)]

end Sys2Proof.Machine

namespace Sys2Proof.Machine

/-! ### The timer instructions (R241 to R243)

LD Vx, DT is a register write. The two loads of a timer write one field and advance: with that field
put back, each is a jump to the next instruction. -/

/-- Settles O47: one register write, and two writes of a timer. -/
theorem timerTransfers : Obligations.TimerTransfers :=
  fun s _ => ⟨givesRegister_setV rfl, ⟨_, rfl, rfl, rfl, rfl, sameBut_jump s _⟩,
    ⟨_, rfl, rfl, rfl, rfl, sameBut_jump s _⟩⟩

/-! ### The countdown (R240) -/

/-- Down by one with a floor at 0 is the subtraction of numbers, which has that floor. -/
theorem toNat_countdown (b : Byte) : (if b = 0 then 0 else b - 1).toNat = b.toNat - 1 := by
  split
  · next h => rw [h]; rfl
  · next h => bv_omega

theorem toNat_dt_tickTimers (s : State) : s.tickTimers.dt.toNat = s.dt.toNat - 1 :=
  toNat_countdown s.dt

theorem toNat_st_tickTimers (s : State) : s.tickTimers.st.toNat = s.st.toNat - 1 :=
  toNat_countdown s.st

/-- Settles O48: on a running machine the port is the countdown, which writes the two timers alone. -/
theorem timersCountDownToZero : Obligations.TimersCountDownToZero := by
  intro s hrun
  rw [tickTimersPort_running hrun]
  exact ⟨toNat_dt_tickTimers s, toNat_st_tickTimers s, rfl⟩

end Sys2Proof.Machine

namespace Sys2Proof.Machine

/-! ### The display instructions (R262, R263) -/

/-- Headless, an instruction that needs the display raises `ConfigurationError`, whatever was to
follow (R306). -/
theorem raises_headless {s : State} (i : Instr) (ok : Result) (h : s.cfg.displayAttached = false) :
    Raises (s.guard (s.needsDisplay i) ok) s (.configurationError (encode i) s.pc) := by
  rw [Raises, needsDisplay_headless i h, guard_some]

/-- A flag byte is 1 exactly when its truth value is true (R170). -/
theorem flagByte_eq_one_iff (c : Bool) : flagByte c = 1 ↔ c = true := by cases c <;> decide

theorem flagByte_one_or_zero (c : Bool) : flagByte c = 1 ∨ flagByte c = 0 := by cases c <;> decide

/-! ### CLS (R262) -/

theorem calls_clear_present (d : Display) (c : Bool) :
    (d.clear c).present.calls = d.calls ++ [.clear c, .present] :=
  List.append_assoc ..

/-- Settles O49: CLS writes the display alone and advances, so with the display put back it is a jump
to the next instruction. -/
theorem clearScreen : Obligations.ClearScreen :=
  fun s => ⟨fun attached => ⟨_, execCls_ok attached, getPixel_clear s.display false,
      calls_clear_present s.display false, rfl, sameBut_jump s _⟩,
    raises_headless .cls _⟩

/-! ### The state a DRW that completes leaves (R263) -/

/-- The state a completed DRW leaves: the sprite blitted and presented, VF the collision, and PC past
the instruction. -/
def State.drawn (s : State) (x y : RegIdx) (n : Nibble) : State :=
  ({ s with display := (drawBlit s x y n).display.present }.setV Config.flagReg
    (collisionFlag (drawBlit s x y n).collision)).advance

/-- The sprite bit that DRW at `s` lays over a pixel. -/
def State.drawBit (s : State) (x y : RegIdx) (n : Nibble) (px : Fin 64) (py : Fin 32) : Bool :=
  spriteBit (readBytes s.mem s.i.toNat n.toNat) (s.getV x).toNat (s.getV y).toNat px py

/-- With the display attached DRW checks its sprite bytes, and then draws. -/
theorem exec_drw_attached {s : State} (x y : RegIdx) (n : Nibble)
    (attached : s.cfg.displayAttached = true) :
    exec (.drw x y n) s =
      s.guard (boundsError s s.i.toNat n.toNat) (.next (s.drawn x y n)) :=
  congrArg (s.guard · _) (needsDisplay_attached _ attached)

theorem exec_drw_ok {s : State} (x y : RegIdx) {n : Nibble}
    (attached : s.cfg.displayAttached = true)
    (fits : n.toNat = 0 ∨ s.i.toNat + n.toNat ≤ Config.memSize) :
    exec (.drw x y n) s = .next (s.drawn x y n) :=
  execDrw_ok x y attached fits

/-- A DRW that answers a running state has drawn; its sprite lies in memory. -/
theorem exec_drw_completed {s t : State} {x y : RegIdx} {n : Nibble}
    (h : exec (.drw x y n) s = .next t) (ht : t.status = .running) :
    s.cfg.displayAttached = true ∧ (n.toNat = 0 ∨ s.i.toNat + n.toNat ≤ Config.memSize) ∧
      t = s.drawn x y n := by
  rcases execDrw_cases h with ⟨-, rfl⟩ | ⟨e, -, -, rfl⟩ | completed
  · cases ht
  · cases ht
  · exact completed

section

variable (s : State) (x y : RegIdx) (n : Nibble)

/-- A sprite has at most 15 rows, so no row wraps onto another. -/
theorem length_sprite_le : (readBytes s.mem s.i.toNat n.toNat).length ≤ 32 := by
  have := n.isLt
  rw [length_readBytes]
  omega

theorem getPixel_drawn (px : Fin 64) (py : Fin 32) :
    (s.drawn x y n).display.getPixel px py =
      (s.display.getPixel px py ^^ s.drawBit x y n px py) :=
  (blit_spec s.display _ _ (length_sprite_le s n)).1 px py

theorem flag_drawn :
    (s.drawn x y n).getV Config.flagReg = flagByte (drawBlit s x y n).collision :=
  getV_setV_same _ _ _

/-- VF is 1 exactly when a set pixel lies under a sprite bit. -/
theorem flag_drawn_eq_one_iff :
    (s.drawn x y n).getV Config.flagReg = 1 ↔
      ∃ px py, s.display.getPixel px py = true ∧ s.drawBit x y n px py = true := by
  rw [flag_drawn, flagByte_eq_one_iff]
  exact (blit_spec s.display _ _ (length_sprite_le s n)).2.1

/-- One draw for each pixel under a sprite bit, then the present. -/
theorem calls_drawn :
    ∃ draws, (s.drawn x y n).display.calls = s.display.calls ++ draws ++ [.present] ∧
      draws.Nodup ∧ ∀ c, c ∈ draws ↔ ∃ px py, s.drawBit x y n px py = true ∧
        c = DisplayCall.drawPixel px py (!s.display.getPixel px py) := by
  obtain ⟨draws, hcalls, hdraws⟩ := (blit_spec s.display _ _ (length_sprite_le s n)).2.2
  exact ⟨draws, congrArg (· ++ [DisplayCall.present]) hcalls, hdraws⟩

/-- With the display put back, a draw is a write of VF. -/
theorem sameBut_drawn :
    SameBut s { s.drawn x y n with display := s.display } [Config.flagReg] :=
  sameBut_setV_advance s Config.flagReg _

end

/-! ### DRW (R263) -/

/-- Settles O50, by the pixels, the flag, the calls and the frame of the drawn state. -/
theorem drawXorsTheSprite : Obligations.DrawXorsTheSprite := by
  refine fun s x y n => ⟨fun attached inRange => ?completes, fun attached hn out => ?outOfRange,
    raises_headless _ _⟩
  case completes =>
    exact ⟨_, exec_drw_ok x y attached (inRange.imp_right Nat.le_succ_of_pred_le),
      getPixel_drawn s x y n, flag_drawn s x y n ▸ flagByte_one_or_zero _,
      flag_drawn_eq_one_iff s x y n, calls_drawn s x y n, rfl, sameBut_drawn s x y n⟩
  case outOfRange =>
    have beyond : Config.memSize < s.i.toNat + n.toNat := Nat.add_lt_of_lt_sub out
    rw [exec_drw_attached x y n attached]
    exact raises_outOfRange _ hn beyond

/-- Settles O51: with no rows the blit leaves the display and notes no collision. -/
theorem emptySpriteClearsTheFlag : Obligations.EmptySpriteClearsTheFlag :=
  fun s x y attached => ⟨_, exec_drw_ok x y attached (.inl rfl), rfl, rfl, flag_drawn s x y 0x0, rfl,
    sameBut_drawn s x y 0x0⟩

/-- Settles O52: both draws XOR one sprite, so the second takes the first back, and the set pixels
under it are those the first draw set. -/
theorem drawTwiceRestoresThePicture : Obligations.DrawTwiceRestoresThePicture := by
  intro s t u w x y n _ hfirst ht hdisplay hmem hi hcfg _ hx hy hsecond
  obtain ⟨attached, fits, rfl⟩ := exec_drw_completed hfirst ht
  obtain rfl : u.drawn x y n = w := by
    rw [exec_drw_ok x y (hcfg ▸ attached) (hi ▸ fits)] at hsecond
    exact Host.Outcome.next.inj hsecond
  have hbit : u.drawBit x y n = s.drawBit x y n := by
    funext px py
    simp only [State.drawBit, hmem, hi, hx, hy]
  refine ⟨fb_ext fun px py => ?restored, ?flag⟩
  case restored =>
    rw [getPixel_drawn, hdisplay, getPixel_drawn, hbit, Bool.xor_assoc, Bool.xor_self,
      Bool.xor_false]
  case flag =>
    rw [flag_drawn_eq_one_iff, hdisplay, hbit]
    refine exists_congr fun px => exists_congr fun py => ?_
    rw [getPixel_drawn]
    cases s.display.getPixel px py <;> simp

/-! ### `present()` (R261, R346) -/

/-- The calls made between two states end in their only `present()`. -/
def PresentsOnce (s t : State) : Prop :=
  ∃ calls, t.display.calls = s.display.calls ++ calls ++ [.present] ∧ DisplayCall.present ∉ calls

/-- Of the changes, only `Change.clear` and `Change.draw` touch the display. -/
theorem Change.display_eq_or_clsDrw {s t : State} {i : Instr} (h : Change s i t) :
    t.display = s.display ∨ i = .cls ∨ ∃ x y n, i = .drw x y n := by
  cases h with
  | clear => exact .inr (.inl rfl)
  | draw x y n => exact .inr (.inr ⟨x, y, n, rfl⟩)
  | _ => exact .inl rfl

theorem exec_cls_presents {s t : State} (h : exec .cls s = .next t) (ht : t.status = .running) :
    PresentsOnce s t := by
  rcases guard_display h with ⟨-, rfl⟩ | ⟨-, hn⟩
  · cases ht
  · cases hn
    exact ⟨[.clear false], rfl, by decide⟩

theorem exec_drw_presents {s t : State} {x y : RegIdx} {n : Nibble}
    (h : exec (.drw x y n) s = .next t) (ht : t.status = .running) : PresentsOnce s t := by
  obtain ⟨-, -, rfl⟩ := exec_drw_completed h ht
  obtain ⟨draws, hcalls, -, hmem⟩ := calls_drawn s x y n
  refine ⟨draws, hcalls, fun hp => ?_⟩
  obtain ⟨_, _, -, hdraw⟩ := (hmem _).mp hp
  cases hdraw

/-- Settles O53: CLS and DRW end in their one present, and no other change touches the display. -/
theorem presentsComeFromClsAndDrw : Obligations.PresentsComeFromClsAndDrw := by
  refine fun i s t _ h => ⟨?presents, fun hcls hdrw => ?untouched⟩
  case presents =>
    rintro ht (rfl | ⟨x, y, n, rfl⟩)
    · exact exec_cls_presents h ht
    · exact exec_drw_presents h ht
  case untouched =>
    rcases (exec_change h).display_eq_or_clsDrw with heq | rfl | ⟨x, y, n, rfl⟩
    · exact heq
    · exact absurd rfl hcls
    · exact absurd rfl (hdrw x y n)

end Sys2Proof.Machine

namespace Sys2Proof.Machine

/-! ### The key skips (R285, R286) -/

theorem toNat_keyByte (k : Key) : (keyByte k).toNat = k.toNat :=
  BitVec.toNat_setWidth_of_le (by decide)

/-- The comparison is of the whole byte, so a register above 0xF equals no key (R285). -/
theorem keyByte_eq_iff (k : Key) (b : Byte) : keyByte k = b ↔ k.toNat = b.toNat := by
  rw [← BitVec.toNat_inj, toNat_keyByte]

theorem keyMatches_eq_true_iff (s : State) (x : RegIdx) :
    s.keyMatches x = true ↔ ∃ k, s.kbd = some k ∧ k.toNat = (s.getV x).toNat := by
  unfold State.keyMatches
  cases s.kbd with
  | none => simp
  | some k => simp [keyByte_eq_iff]

theorem keyMatches_eq_false_iff (s : State) (x : RegIdx) :
    s.keyMatches x = false ↔ ∀ k, s.kbd = some k → k.toNat ≠ (s.getV x).toNat := by
  simp only [← Bool.not_eq_true, keyMatches_eq_true_iff, not_exists, not_and, ne_eq]

/-- Settles O54: both poll once and skip on the match or its negation, so with the inputs put back
each is a jump. -/
theorem keySkips : Obligations.KeySkips := by
  refine fun s x => ⟨fun attached => ⟨_, _, execSkp_ok x attached, execSknp_ok x attached,
      fun pressed => ?pressed, fun notPressed => ?notPressed, rfl, rfl, sameBut_jump s _,
      sameBut_jump s _⟩,
    fun headless => ⟨raises_headless _ _ headless, raises_headless _ _ headless⟩⟩
  case pressed =>
    rw [(keyMatches_eq_true_iff s x).mpr pressed]
    exact ⟨rfl, rfl⟩
  case notPressed =>
    rw [(keyMatches_eq_false_iff s x).mpr notPressed]
    exact ⟨rfl, rfl⟩

/-! ### The key wait (R116, R287) -/

/-- A key wait stalls exactly with the keyboard attached and no key (R116). -/
theorem stalls_ldVxK_iff (s : State) (x : RegIdx) :
    s.stalls (.ldVxK x) = true ↔ s.cfg.displayAttached = true ∧ s.kbd = none := by
  simp only [State.stalls, Bool.and_eq_true, Option.isNone_iff_eq_none]

/-- A step that stalls is not counted, so it too uses up the answer alone (R118). -/
theorem step_stalled {s : State} {i : Instr} (hr : s.status = .running) (hf : s.fetch = .ok i)
    (hs : s.stalls i = true) : step s = .next s.takeKbd := by
  rw [step_of_fetch_ok hr hf (exec_stalled hs), afterExec_stalled ((status_takeKbd s).trans hr) hs]

/-- Settles O55: a key taken is a register write after the poll, and no key is a stall. -/
theorem keyWait : Obligations.KeyWait := by
  refine fun s x => ⟨fun attached k hk => ?key, fun attached hk => ?stall, raises_headless _ _⟩
  case key =>
    have hres : (s.takeKbd.setV x (keyByte k)).advance.getV x = keyByte k :=
      getV_setV_same s.takeKbd x _
    exact ⟨_, execLdVxK_ok attached hk, (congrArg BitVec.toNat hres).trans (toNat_keyByte k), rfl,
      rfl, sameBut_setV_advance s x _⟩
  case stall =>
    have hstall : s.stalls (.ldVxK x) = true := (stalls_ldVxK_iff s x).mpr ⟨attached, hk⟩
    exact ⟨exec_stalled hstall, fun hr hf => step_stalled hr hf hstall⟩

end Sys2Proof.Machine

namespace Sys2Proof.Machine

/-! ### The errors of the fetch (R304) -/

/-- Settles O17: the fetch error of a running machine is the step's. -/
theorem badFetchAddressesHalt : Obligations.BadFetchAddressesHalt :=
  fun _ hr => ⟨fun hodd => step_of_fetch_error hr (fetch_misaligned hodd),
    fun heven hbig => step_of_fetch_error hr (fetch_beyondMemory heven hbig)⟩

/-- A fetch raises one of three errors, each under its own check, in the order of R304. -/
theorem fetch_error {s : State} {e : FatalError} (h : s.fetch = .error e) :
    (e = .misalignedFetch s.pc ∧ s.pc.toNat % 2 = 1) ∨
      (e = .memoryBounds s.pc s.pc ∧ s.pc.toNat % 2 = 0 ∧ 0xFFE < s.pc.toNat) ∨
      (e = .decodeError (readWord s.mem s.pc.toNat) s.pc ∧
        decode (readWord s.mem s.pc.toNat) = none) := by
  rcases Nat.mod_two_eq_zero_or_one s.pc.toNat with heven | hodd
  · rcases Nat.lt_or_ge 0xFFE s.pc.toNat with hbig | hpc
    · cases h.symm.trans (fetch_beyondMemory heven hbig)
      exact .inr (.inl ⟨rfl, heven, hbig⟩)
    · have fits : s.pc.toNat + 2 ≤ Config.memSize := Nat.add_le_add_right hpc 2
      cases hd : decode (readWord s.mem s.pc.toNat) with
      | none =>
        cases h.symm.trans (fetch_decodeError heven fits hd)
        exact .inr (.inr ⟨rfl, rfl⟩)
      | some i => cases h.symm.trans (fetch_ok heven fits hd)
  · cases h.symm.trans (fetch_misaligned hodd)
    exact .inl ⟨rfl, hodd⟩

/-! ### The words of the five display and keyboard instructions (R306) -/

/-- A word of format X, its low byte fixed, is given by its leftmost nibble, low byte and x. -/
theorem word_eq_of_fields {op : Word} {o : Nibble} {x : RegIdx} {kk : Byte}
    (hO : fieldO op = o) (hKK : fieldKK op = kk) (hx : fieldX op = x) : op = wordXKK o x kk := by
  rw [← hO, ← hKK, ← hx]
  exact word_eq_XKK op

/-- The five have no bit that decoding ignores: the row fixes the opcode fields, and the tables read
the operands off the others. -/
theorem word_of_decode_usesDisplay {op : Word} {i : Instr} (h : decode op = some i)
    (hi : i.usesDisplay = true) : op = encode i := by
  have row : ∀ r ∈ opcodeRows, i.rowNumber = r.number → op &&& r.mask = r.pattern :=
    fun r hr hn => (opcodeMapDecidesTheRow op r hr).mpr ⟨i, h, hn⟩
  cases i with
  | cls => exact (and_FFFF op).symm.trans (row ⟨1, 0x00E0, 0xFFFF⟩ (by decide) rfl)
  | drw x y n =>
    have hO : fieldO op = 0xD := (and_F000_eq op 0xD).mp (row ⟨23, 0xD000, 0xF000⟩ (by decide) rfl)
    have hd : decode op = some (.drw (fieldX op) (fieldY op) (fieldN op)) := by
      simp [singlePurposeNibbleTable op, hO]
    cases hd.symm.trans h
    rw [encode, ← hO]
    exact word_eq_XYN op
  | skp x =>
    obtain ⟨hO, hKK⟩ := (and_F0FF_eq op 0xE 0x9E).mp (row ⟨24, 0xE09E, 0xF0FF⟩ (by decide) rfl)
    have hd := (fullWordAndKeySkipStages.2.2 op hO).1 hKK
    exact word_eq_of_fields hO hKK (Instr.skp.inj (Option.some.inj (hd.symm.trans h)))
  | sknp x =>
    obtain ⟨hO, hKK⟩ := (and_F0FF_eq op 0xE 0xA1).mp (row ⟨25, 0xE0A1, 0xF0FF⟩ (by decide) rfl)
    have hd := (fullWordAndKeySkipStages.2.2 op hO).2 hKK
    exact word_eq_of_fields hO hKK (Instr.sknp.inj (Option.some.inj (hd.symm.trans h)))
  | ldVxK x =>
    obtain ⟨hO, hKK⟩ := (and_F0FF_eq op 0xF 0x0A).mp (row ⟨27, 0xF00A, 0xF0FF⟩ (by decide) rfl)
    have hd := (fTable op hO).2.1 hKK
    exact word_eq_of_fields hO hKK (Instr.ldVxK.inj (Option.some.inj (hd.symm.trans h)))
  | _ => cases hi

/-! ### The errors of an execution (R300) -/

/-- How many bytes at I an instruction accesses (R213 to R215, R263). -/
def bytesAtI : Instr → Nat
  | .ldBVx _ => 3
  | .ldMemVx x | .ldVxMem x => x.toNat + 1
  | .drw _ _ n => n.toNat
  | _ => 0

/-- The errors an instruction can raise at `s`, each with its cause. -/
inductive ExecError (s : State) : Instr → FatalError → Prop where
  /-- No display (R306). -/
  | headless (i : Instr) (uses : i.usesDisplay = true) (off : s.cfg.displayAttached = false) :
      ExecError s i (.configurationError (encode i) s.pc)
  /-- CALL with SP at the last slot (R140). -/
  | stackFull (nnn : Addr) (full : s.sp.toNat = s.cfg.spMax) :
      ExecError s (.call nnn) (.stackOverflow s.pc s.sp)
  /-- RET with no entry (R141). -/
  | stackEmpty (empty : s.sp.toNat = s.cfg.spEmpty) :
      ExecError s .ret (.stackUnderflow s.pc s.sp)
  /-- An access at I that ends beyond memory, at its first byte there (R53). -/
  | outOfRange (i : Instr) (accesses : bytesAtI i ≠ 0)
      (beyond : Config.memSize < s.i.toNat + bytesAtI i) :
      ExecError s i (.memoryBounds s.pc (if s.i.toNat ≤ 0xFFF then 0x1000 else s.i))
  /-- LD F, Vx of a value that is no digit (R212). -/
  | noDigit (x : RegIdx) (big : 0x0F < (s.getV x).toNat) :
      ExecError s (.ldFVx x) (.fontDigitRange s.pc (s.getV x))

theorem ExecError.of_boundsError {s : State} (i : Instr) {e : FatalError}
    (h : boundsError s s.i.toNat (bytesAtI i) = some e) : ExecError s i e := by
  obtain ⟨hn, hbeyond, rfl⟩ := boundsError_eq_some.mp h
  rw [badAddr_eq]
  exact .outOfRange i hn hbeyond

/-- With a legal SP a push fails only from the last slot: slots lie 2 apart, and the region lies in
memory (R27, R140). -/
theorem push_error_of_stackOk {s : State} {w : Word} {e : FatalError}
    (hp : s.cfg.wellFormed = true) (hs : s.stackOk = true) (h : s.push w = .error e) :
    e = .stackOverflow s.pc s.sp ∧ s.sp.toNat = s.cfg.spMax := by
  obtain ⟨-, -, hbase, hmax, -, -⟩ := (wellFormed_iff s.cfg).mp hp
  rw [stackOk_iff] at hs
  rcases push_error h with ⟨rfl, hfull⟩ | ⟨a, -, hroom, hbeyond⟩
  · refine ⟨rfl, ?_⟩
    unfold Params.spEmpty at hs
    unfold Params.spMax at hs hfull ⊢
    omega
  · simp only [Config.memSize] at hbeyond
    omega

/-- With a legal SP a pop fails only on the empty stack (R27, R141). -/
theorem pop_error_of_stackOk {s : State} {e : FatalError} (hp : s.cfg.wellFormed = true)
    (hs : s.stackOk = true) (h : s.pop = .error e) :
    e = .stackUnderflow s.pc s.sp ∧ s.sp.toNat = s.cfg.spEmpty := by
  obtain ⟨-, -, -, hmax, -, -⟩ := (wellFormed_iff s.cfg).mp hp
  rw [stackOk_iff] at hs
  rcases pop_error h with h' | ⟨a, -, hne, hbeyond⟩
  · exact h'
  · simp only [Config.memSize] at hbeyond
    omega

/-- An execution keeps the status, or raises one of the instruction's errors. -/
theorem exec_status {s t : State} {i : Instr} (hp : s.cfg.wellFormed = true)
    (hs : s.stackOk = true) (h : exec i s = .next t) :
    t.status = s.status ∨ ∃ e, t.status = .halted e ∧ ExecError s i e := by
  cases i with
  | cls | skp | sknp =>
    rcases guard_display h with ⟨off, rfl⟩ | ⟨-, hn⟩
    · exact .inr ⟨_, rfl, .headless _ rfl off⟩
    · cases hn; exact .inl rfl
  | ldVxK =>
    rcases execLdVxK_cases h with ⟨off, rfl⟩ | ⟨-, -, rfl⟩ | ⟨k, -, -, rfl⟩
    · exact .inr ⟨_, rfl, .headless _ rfl off⟩
    · exact .inl rfl
    · exact .inl rfl
  | drw x y n =>
    rcases execDrw_cases h with ⟨off, rfl⟩ | ⟨e, -, he, rfl⟩ | ⟨-, -, rfl⟩
    · exact .inr ⟨_, rfl, .headless _ rfl off⟩
    · exact .inr ⟨e, rfl, .of_boundsError (.drw x y n) he⟩
    · exact .inl rfl
  | ldBVx | ldMemVx | ldVxMem =>
    rcases guard_next h with ⟨e, he, rfl⟩ | ⟨-, hn⟩
    · exact .inr ⟨e, rfl, .of_boundsError _ he⟩
    · cases hn; exact .inl rfl
  | ret =>
    rcases execRet_cases h with ⟨e, he, rfl⟩ | ⟨-, -, rfl⟩
    · obtain ⟨rfl, empty⟩ := pop_error_of_stackOk hp hs he
      exact .inr ⟨_, rfl, .stackEmpty empty⟩
    · exact .inl rfl
  | call nnn =>
    rcases execCall_cases h with ⟨e, he, rfl⟩ | ⟨-, -, rfl⟩
    · obtain ⟨rfl, full⟩ := push_error_of_stackOk hp hs he
      exact .inr ⟨_, rfl, .stackFull nnn full⟩
    · exact .inl rfl
  | ldFVx x =>
    rcases execLdFVx_cases h with ⟨big, rfl⟩ | ⟨-, rfl⟩
    · exact .inr ⟨_, rfl, .noDigit x big⟩
    · exact .inl rfl
  | rnd => cases h; exact .inl (status_takeRnd s)
  | _ => cases h; exact .inl rfl

/-- The address recorded for an access at I lies beyond memory. -/
theorem firstBadAddr_gt (a : Word) : 0xFFF < (if a.toNat ≤ 0xFFF then 0x1000 else a).toNat := by
  split
  · decide
  · omega

/-- Settles O20: the error is the fetch's, or the fetched instruction's. -/
theorem eachErrorHasItsCause : Obligations.EachErrorHasItsCause := by
  intro s t e hinv hstep ht
  obtain ⟨hp, -, hs, -, -, -⟩ := (inv_iff s).mp hinv
  obtain ⟨hr, ⟨e', he, rfl⟩ | ⟨i, u, hf, hu, rfl⟩⟩ := step_cases hstep
  · cases ht
    rcases fetch_error he with ⟨rfl, hodd⟩ | ⟨rfl, heven, hbig⟩ | ⟨rfl, hnone⟩
    · exact ⟨rfl, hodd⟩
    · exact ⟨rfl, by omega, .inl ⟨hbig, heven, rfl⟩⟩
    · exact ⟨rfl, rfl, hnone⟩
  · obtain ⟨-, -, hd⟩ := fetch_eq_ok hf
    rw [status_afterExec] at ht
    rcases exec_status hp hs hu with hkeep | ⟨e', he', cause⟩
    · cases (hkeep.trans hr).symm.trans ht
    · cases he'.symm.trans ht
      cases cause with
      | headless _ uses off =>
        have hop : readWord s.mem s.pc.toNat = encode i := word_of_decode_usesDisplay hd uses
        exact ⟨rfl, hop.symm, off, i, decode_encode i, uses⟩
      | stackFull nnn full => exact ⟨rfl, rfl, full, nnn, hd⟩
      | stackEmpty empty => exact ⟨rfl, rfl, empty, hd⟩
      | noDigit x big => exact ⟨rfl, x, rfl, big, hd⟩
      | outOfRange _ accesses beyond =>
        refine ⟨rfl, firstBadAddr_gt s.i, .inr ?_⟩
        cases i with
        | ldBVx x => exact .inl ⟨⟨x, hd⟩, Nat.lt_of_succ_lt_succ beyond, rfl⟩
        | ldMemVx x => exact .inr (.inl ⟨⟨x, .inl hd, Nat.lt_of_succ_lt_succ beyond⟩, rfl⟩)
        | ldVxMem x => exact .inr (.inl ⟨⟨x, .inr hd, Nat.lt_of_succ_lt_succ beyond⟩, rfl⟩)
        | drw x y n =>
          exact .inr (.inr ⟨⟨x, y, n, hd, accesses, Nat.lt_sub_of_add_lt beyond⟩, rfl⟩)
        | _ => exact absurd rfl accesses

/-! ### Headless and attached executions (R306)

`attached` connects the display. An instruction that does not use the display answers, from the
attached state, what it answers from the state itself, but for the attachment. -/

/-- The state with the display connected. -/
def State.attached (s : State) : State := { s with cfg := { s.cfg with displayAttached := true } }

/-- An outcome with the display of its state connected. -/
def attachedResult : Result → Result
  | .next t => .next t.attached
  | .fault f => .fault f
  | .refused r => .refused r

/-- A check that does not ask for the display guards alike. -/
theorem attached_guard {s : State} (o : Option FatalError) {r r' : Result}
    (h : r' = attachedResult r) : s.attached.guard o r' = attachedResult (s.guard o r) := by
  cases o with
  | none => exact h
  | some e => rfl

/-- An operation that answers alike continues or raises alike. -/
theorem attached_bindError {α : Type} {s : State} (r : Except FatalError α) (g : α → α)
    {ok : α → Result} (h : ∀ a, ok (g a) = attachedResult (ok a)) :
    s.attached.bindError (r.map g) ok = attachedResult (s.bindError r ok) := by
  cases r with
  | error e => rfl
  | ok a => exact h a

/-- The three cases of a push look at PC, SP, the parameters of the stack and memory alone. -/
theorem push_attached (s : State) (w : Word) :
    s.attached.push w = (s.push w).map State.attached := by
  by_cases hmax : s.cfg.spMax < s.sp.toNat + 2
  · rw [push_overflow w hmax, push_overflow (s := s.attached) w hmax]; rfl
  · have hroom := Nat.le_of_not_lt hmax
    cases hb : boundsError s (s.sp.toNat + 2) 2 with
    | some e =>
      rw [push_outOfRange w hroom hb, push_outOfRange (s := s.attached) w hroom hb]; rfl
    | none =>
      have hfit := (boundsError_eq_none.mp hb).resolve_left (by decide)
      rw [push_ok w hroom hfit, push_ok (s := s.attached) w hroom hfit]; rfl

theorem pop_attached (s : State) :
    s.attached.pop = s.pop.map fun r => (r.1, r.2.attached) := by
  by_cases hempty : s.sp.toNat = s.cfg.spEmpty
  · rw [pop_underflow hempty, pop_underflow (s := s.attached) hempty]; rfl
  · cases hb : boundsError s s.sp.toNat 2 with
    | some e => rw [pop_outOfRange hempty hb, pop_outOfRange (s := s.attached) hempty hb]; rfl
    | none =>
      have hfit := (boundsError_eq_none.mp hb).resolve_left (by decide)
      rw [pop_ok hempty hfit, pop_ok (s := s.attached) hempty hfit]; rfl

theorem takeRnd_attached (s : State) : s.attached.takeRnd = s.takeRnd.attached := by
  cases h : s.cfg.deterministic <;> simp [State.takeRnd, h, State.attached]

theorem execLdFVx_attached (x : RegIdx) (s : State) :
    execLdFVx x s.attached = attachedResult (execLdFVx x s) := by
  by_cases h : (s.getV x).toNat ≤ 0xF
  · rw [execLdFVx_ok h, execLdFVx_ok (s := s.attached) h]; rfl
  · have h' := Nat.lt_of_not_le h
    rw [execLdFVx_raise h', execLdFVx_raise (s := s.attached) h']; rfl

/-- Only the five look at the attachment. -/
theorem exec_attached {i : Instr} (s : State) (hi : i.usesDisplay = false) :
    exec i s.attached = attachedResult (exec i s) := by
  cases i with
  | cls | drw | skp | sknp | ldVxK => cases hi
  | ldBVx | ldMemVx | ldVxMem => exact attached_guard _ rfl
  | ret =>
    show execRet s.attached = _
    rw [execRet, pop_attached]
    exact attached_bindError _ _ fun _ => rfl
  | call nnn =>
    show execCall nnn s.attached = _
    rw [execCall, push_attached]
    exact attached_bindError _ _ fun _ => rfl
  | rnd x kk =>
    show execRnd x kk s.attached = _
    rw [execRnd, takeRnd_attached]
    rfl
  | ldFVx x => exact execLdFVx_attached x s
  | _ => rfl

/-- The five check the display before anything else. -/
theorem exec_headless {s : State} {i : Instr} (off : s.cfg.displayAttached = false)
    (hi : i.usesDisplay = true) : Raises (exec i s) s (.configurationError (encode i) s.pc) := by
  cases i with
  | cls | drw | skp | sknp | ldVxK => exact raises_headless _ _ off
  | _ => cases hi

/-- Settles O21: the five check the display first, and have one word each; no other instruction
looks at the attachment. -/
theorem headlessDisplayInstructionsHalt : Obligations.HeadlessDisplayInstructionsHalt := by
  refine fun i s off => ⟨fun uses => ⟨exec_headless off uses,
    fun op hd => word_of_decode_usesDisplay hd uses⟩, fun hi => ?_⟩
  obtain ⟨t, ht⟩ := exec_answers i s
  exact ⟨t, ht, (exec_attached s hi).trans (congrArg attachedResult ht)⟩

end Sys2Proof.Machine

namespace Sys2Proof.Machine

/-! ### The boot sequence (R342) -/

/-- With images that fit, neither load of the boot halts, so the boot is two stores. -/
theorem boot_fits {p : Params} {font rom : List Byte}
    (hfont : p.fontBase + font.length ≤ Config.memSize)
    (hrom : Config.loadAddr + rom.length ≤ Config.memSize) :
    State.boot p (some font) (some rom) =
      { State.construct p with
        mem := writeBytes (writeBytes [] p.fontBase font) Config.loadAddr rom } := by
  rw [State.boot, load_fits (s := State.construct p) rfl hfont]
  exact load_fits rfl hrom

/-- Settles O14: the program is stored last, so its bytes all stand, and those of the font that it
does not cover. -/
theorem bootPlacesFontAndProgram : Obligations.BootPlacesFontAndProgram := by
  intro p font rom hfont hrom
  have hwf : Memory.wf (writeBytes [] p.fontBase font) = true := writeBytes_wf rfl hfont
  rw [boot_fits hfont hrom]
  refine ⟨fun k b => readMem_writeBytes_stored hwf hrom, fun k b hk uncovered => ?_, rfl⟩
  exact (readMem_writeBytes_outside uncovered).trans (readMem_writeBytes_stored rfl hfont hk)

/-! ### The timers as a program sees them (R345) -/

/-- A timer that was `b` in `s` is `b'`: left alone, or lowered by one after the N-th step. -/
def TicksDown (s : State) (b b' : Byte) : Prop :=
  b' = b ∨ (b'.toNat + 1 = b.toNat ∧ s.tick + 1 = s.cfg.timerDivider)

/-- The countdown of a timer at the N-th step is at its floor, or lowers it by one (R240). -/
theorem ticksDown_countdown {s : State} (last : s.tick + 1 = s.cfg.timerDivider) (b : Byte) :
    TicksDown s b (if b = 0 then 0 else b - 1) := by
  by_cases h : b = 0
  · exact .inl (by rw [if_pos h, h])
  · have hpos : b.toNat ≠ 0 := fun h0 => h (BitVec.eq_of_toNat_eq h0)
    exact .inr ⟨by rw [toNat_countdown]; omega, last⟩

/-- The count of a completed step ticks both timers down, at the N-th step alone (R117). -/
theorem ticksDown_countStep (s : State) :
    TicksDown s s.dt s.countStep.dt ∧ TicksDown s s.st s.countStep.st := by
  by_cases last : s.tick + 1 = s.cfg.timerDivider
  · rw [countStep_last last]
    exact ⟨ticksDown_countdown last s.dt, ticksDown_countdown last s.st⟩
  · rw [countStep_before last]
    exact ⟨.inl rfl, .inl rfl⟩

namespace Change

variable {s t : State} {i : Instr}

/-- Of the changes, only `Change.delayTimer` touches DT. -/
theorem dt_eq (h : Change s i t) (hi : ∀ x, i ≠ .ldDTVx x) : t.dt = s.dt := by
  cases h with
  | delayTimer x => exact absurd rfl (hi x)
  | _ => rfl

/-- Of the changes, only `Change.soundTimer` touches ST. -/
theorem st_eq (h : Change s i t) (hi : ∀ x, i ≠ .ldSTVx x) : t.st = s.st := by
  cases h with
  | soundTimer x => exact absurd rfl (hi x)
  | _ => rfl

/-- An execution keeps the count, so a timer ticks down from its result as from its start. -/
theorem ticksDown (h : Change s i t) {b b' : Byte} (ht : TicksDown t b b') : TicksDown s b b' := by
  unfold TicksDown at ht ⊢
  rwa [h.tick, h.cfg] at ht

end Change

/-- Settles O24: a step that raises or stalls keeps both timers, and one that completes keeps the
timer it does not write until the count. -/
theorem timersOnlyTickDown : Obligations.TimersOnlyTickDown := by
  intro s t i _ hf h
  cases stepEnd_of_fetch hf h with
  | raised e => exact ⟨fun _ => .inl rfl, fun _ => .inl rfl⟩
  | stalled => exact ⟨fun _ => .inl rfl, fun _ => .inl rfl⟩
  | completed u hu =>
    have hc := exec_change hu
    obtain ⟨hdt, hst⟩ := ticksDown_countStep u
    exact ⟨fun hi => hc.ticksDown (hc.dt_eq hi ▸ hdt),
      fun hi => hc.ticksDown (hc.st_eq hi ▸ hst)⟩

/-! ### The stopped state (R348) -/

/-- A word in memory's range is a 12-bit address (R82). -/
theorem addrWord_setWidth {w : Word} (h : w.toNat ≤ 0xFFF) : addrWord (w.setWidth 12) = w := by
  apply BitVec.eq_of_toNat_eq
  rw [addrWord, BitVec.toNat_setWidth, BitVec.toNat_setWidth]
  omega

/-- The word of R348, `0x1000 | a`, is that of a jump to `a`. -/
theorem or_addrWord_eq_encode (a : Addr) : 0x1000 ||| addrWord a = encode (.jp a) := by
  have hjp : (0x1000 : Word) = 0x1#4 ++ 0#12 := by decide
  have ha : addrWord a = 0#4 ++ a := BitVec.setWidth_eq_append (by decide)
  rw [hjp, ha, BitVec.or_append, BitVec.or_zero, BitVec.zero_or]
  rfl

section

variable {s : State}

/-- PC is in memory's range, so it is the address of a jump to itself. -/
theorem addrWord_pc_stopped (h : s.stopped = true) : addrWord (s.pc.setWidth 12) = s.pc := by
  obtain ⟨-, -, hpc, -⟩ := (stopped_iff s).mp h
  exact addrWord_setWidth (Nat.le_succ_of_le hpc)

theorem fetch_stopped (h : s.stopped = true) : s.fetch = .ok (.jp (s.pc.setWidth 12)) := by
  obtain ⟨-, heven, hpc, hword⟩ := (stopped_iff s).mp h
  refine fetch_ok heven (Nat.add_le_add_right hpc 2) ?_
  calc decode (readWord s.mem s.pc.toNat)
      = decode (0x1000 ||| addrWord (s.pc.setWidth 12)) := by rw [hword, addrWord_pc_stopped h]
    _ = decode (encode (.jp (s.pc.setWidth 12))) := by rw [or_addrWord_eq_encode]
    _ = some (.jp (s.pc.setWidth 12)) := decode_encode _

theorem exec_stopped (h : s.stopped = true) : exec (.jp (s.pc.setWidth 12)) s = .next s :=
  congrArg (fun a => Host.Outcome.next (s.jump a)) (addrWord_pc_stopped h)

/-- The jump to PC leaves the state as it is, so the step is the run loop's count alone. -/
theorem step_stopped (h : s.stopped = true) : step s = .next s.countStep := by
  obtain ⟨hr, -⟩ := (stopped_iff s).mp h
  rw [step_of_fetch_ok hr (fetch_stopped h) (exec_stopped h), afterExec_completed hr rfl]

end

/-- The count changes what is not observed. -/
theorem observation_countStep (s : State) : s.countStep.observation = s.observation := by
  unfold State.countStep
  split <;> rfl

/-- To have stopped is observed. -/
theorem stopped_observation (s : State) : s.observation.stopped = s.stopped := rfl

/-- Settles O26: the step is the count, which leaves the observation, and with it the stop. -/
theorem stoppedStateOnlyTicks : Obligations.StoppedStateOnlyTicks := by
  intro s h
  have hobs : s.countStep.observation = s.observation := observation_countStep s
  refine ⟨s.countStep, step_stopped h, hobs, ?_⟩
  calc s.countStep.stopped = s.countStep.observation.stopped := (stopped_observation _).symm
    _ = s.observation.stopped := by rw [hobs]
    _ = true := h

end Sys2Proof.Machine
